-- ==== Sys2Proof/Word.lean ====
section
/-! DEFINITION. The value types of the spec (00_scope.md R9, 10_state.md R20): u8, u16, register indices. -/

namespace Sys2Proof

/-- `u8`: a byte of memory, a general register, a timer (R9). -/
abbrev Byte := BitVec 8

/-- `u16`: the PC, I, a stack slot, an instruction word (R9). -/
abbrev Word := BitVec 16

/-- NNN, an unsigned 12-bit address (30_encoding.md R71). -/
abbrev Addr := BitVec 12

/-- A register index 0..15, V0..VF (10_state.md R21); also a key number 0x0..0xF (00_scope.md R6). -/
abbrev Reg := Fin 16

/-- `VF`, register 15, the flag output (10_state.md R22). -/
abbrev regF : Reg := 15

/-- The display grid: 32 rows of 64 pixels, `disp[y][x]`, `true` is on (10_state.md R31). -/
abbrev Display := Vector (Vector Bool 64) 32

end Sys2Proof
end

