-- ==== Sys2Proof/Syntax.lean ====
section
/-! DEFINITION. The instructions: one constructor per row of the opcode map (30_encoding.md R74), in its
order. Operands are the fields of R71, each of exactly the field's range, so that every term is an instruction. -/

namespace Sys2Proof

/-- The 34 instructions of R74. `x` and `y` select V[X] and V[Y]; `nn`, `nnn` and `n` are immediates (R72). -/
inductive Instr where
  /-- 00E0 CLS: clear the display (R100). -/
  | cls
  /-- 00EE RET: return from a subroutine (R110). -/
  | ret
  /-- 1NNN JP addr: jump (R111). -/
  | jp (nnn : Addr)
  /-- 2NNN CALL addr: call a subroutine (R112). -/
  | call (nnn : Addr)
  /-- 3XNN SE Vx, byte: skip if equal (R121). -/
  | seImm (x : Reg) (nn : Byte)
  /-- 4XNN SNE Vx, byte: skip if not equal (R122). -/
  | sneImm (x : Reg) (nn : Byte)
  /-- 5XY0 SE Vx, Vy: skip if equal (R123). -/
  | seReg (x y : Reg)
  /-- 6XNN LD Vx, byte (R132). -/
  | ldImm (x : Reg) (nn : Byte)
  /-- 7XNN ADD Vx, byte: no flag (R133). -/
  | addImm (x : Reg) (nn : Byte)
  /-- 8XY0 LD Vx, Vy (R134). -/
  | ldReg (x y : Reg)
  /-- 8XY1 OR Vx, Vy (R135). -/
  | orReg (x y : Reg)
  /-- 8XY2 AND Vx, Vy (R136). -/
  | andReg (x y : Reg)
  /-- 8XY3 XOR Vx, Vy (R137). -/
  | xorReg (x y : Reg)
  /-- 8XY4 ADD Vx, Vy: VF is the carry (R138). -/
  | addReg (x y : Reg)
  /-- 8XY5 SUB Vx, Vy: VF is "no borrow" (R139). -/
  | sub (x y : Reg)
  /-- 8XY6 SHR Vx, Vy: Y is decoded and not read (R140). -/
  | shr (x y : Reg)
  /-- 8XY7 SUBN Vx, Vy: VF is "no borrow" (R141). -/
  | subn (x y : Reg)
  /-- 8XYE SHL Vx, Vy: Y is decoded and not read (R142). -/
  | shl (x y : Reg)
  /-- 9XY0 SNE Vx, Vy: skip if not equal (R124). -/
  | sneReg (x y : Reg)
  /-- ANNN LD I, addr (R150). -/
  | ldI (nnn : Addr)
  /-- BNNN JP V0, addr: jump to NNN + V0 (R113). -/
  | jpV0 (nnn : Addr)
  /-- CXNN RND Vx, byte: a random byte masked by NN (R143). -/
  | rnd (x : Reg) (nn : Byte)
  /-- DXYN DRW Vx, Vy, N: draw an N-row sprite (R101). -/
  | drw (x y : Reg) (n : Fin 16)
  /-- EX9E SKP Vx: skip if key V[X] is down (R125). -/
  | skp (x : Reg)
  /-- EXA1 SKNP Vx: skip if key V[X] is up (R126). -/
  | sknp (x : Reg)
  /-- FX07 LD Vx, DT (R160). -/
  | ldVxDt (x : Reg)
  /-- FX0A LD Vx, K: wait for a key press (R161). -/
  | ldVxK (x : Reg)
  /-- FX15 LD DT, Vx (R162). -/
  | ldDtVx (x : Reg)
  /-- FX18 LD ST, Vx (R163). -/
  | ldStVx (x : Reg)
  /-- FX1E ADD I, Vx (R151). -/
  | addI (x : Reg)
  /-- FX29 LD F, Vx: point I at a glyph (R152). -/
  | ldF (x : Reg)
  /-- FX33 LD B, Vx: store three decimal digits (R153). -/
  | ldB (x : Reg)
  /-- FX55 LD [I], Vx: store V0..VX (R154). -/
  | ldMemVx (x : Reg)
  /-- FX65 LD Vx, [I]: load V0..VX (R155). -/
  | ldVxMem (x : Reg)
  deriving DecidableEq, Repr

end Sys2Proof
end

