-- ==== Sys2Proof/WellFormed.lean ====
section
/-! DEFINITION. What must be checked beyond the types. An instruction needs no check: every operand of `Instr`
has exactly the range of its field (30_encoding.md R71), so there is no ill-formed term to refuse. A program
image needs one: it must fit the program area (70_reset_and_hazards.md R201). -/

namespace Sys2Proof

/-- ROM_MAX = 4096 - 512 (00_scope.md R6). -/
def romMax : Nat := 0x1000 - 0x200

/-- A ROM image that `Reset(rom)` accepts: `L <= 3584` (R201). It has no other form: a raw byte list (R80). -/
def romFits (rom : List Byte) : Bool := decide (rom.length ≤ romMax)

end Sys2Proof
end

