-- ==== Sys2Proof/Decode.lean ====
section
/-! DEFINITION. From words to instructions and back (30_encoding.md). The decoder is the opcode map of R74,
row by row: a word is the instruction of the row whose `word AND mask = match` (40_cycle.md R93). The encoder
assembles the fields as R71 says. -/

namespace Sys2Proof

/-- The six fields of a word, all extracted for every word (R71, R92). -/
structure Fields where
  /-- w[15:12]. -/
  op : BitVec 4
  /-- w[11:8]. -/
  x : Reg
  /-- w[7:4]. -/
  y : Reg
  /-- w[3:0]. -/
  n : Fin 16
  /-- w[7:0]. -/
  nn : Byte
  /-- w[11:0]. -/
  nnn : Addr
  deriving DecidableEq, Repr

/-- Decode's field extraction (R71): total, and the same for every word. -/
def fields (w : Word) : Fields where
  op := w.extractLsb' 12 4
  x := (w.extractLsb' 8 4).toFin
  y := (w.extractLsb' 4 4).toFin
  n := (w.extractLsb' 0 4).toFin
  nn := w.extractLsb' 0 8
  nnn := w.extractLsb' 0 12

/-- One row of the opcode map of R74. -/
structure Row where
  /-- The bits that select the row. -/
  mask : Word
  /-- What those bits must be. -/
  val : Word
  /-- The instruction the row reads from the fields. -/
  instr : Fields → Instr

/-- Rows 1 to 9 of R74, in the source's order. -/
def rows1to9 : List Row :=
  [ ⟨0xFFFF, 0x00E0, fun _ => .cls⟩
  , ⟨0xFFFF, 0x00EE, fun _ => .ret⟩
  , ⟨0xF000, 0x1000, fun f => .jp f.nnn⟩
  , ⟨0xF000, 0x2000, fun f => .call f.nnn⟩
  , ⟨0xF000, 0x3000, fun f => .seImm f.x f.nn⟩
  , ⟨0xF000, 0x4000, fun f => .sneImm f.x f.nn⟩
  , ⟨0xF00F, 0x5000, fun f => .seReg f.x f.y⟩
  , ⟨0xF000, 0x6000, fun f => .ldImm f.x f.nn⟩
  , ⟨0xF000, 0x7000, fun f => .addImm f.x f.nn⟩ ]

/-- Rows 10 to 18 of R74: op 0x8, told apart by N. -/
def rows10to18 : List Row :=
  [ ⟨0xF00F, 0x8000, fun f => .ldReg f.x f.y⟩
  , ⟨0xF00F, 0x8001, fun f => .orReg f.x f.y⟩
  , ⟨0xF00F, 0x8002, fun f => .andReg f.x f.y⟩
  , ⟨0xF00F, 0x8003, fun f => .xorReg f.x f.y⟩
  , ⟨0xF00F, 0x8004, fun f => .addReg f.x f.y⟩
  , ⟨0xF00F, 0x8005, fun f => .sub f.x f.y⟩
  , ⟨0xF00F, 0x8006, fun f => .shr f.x f.y⟩
  , ⟨0xF00F, 0x8007, fun f => .subn f.x f.y⟩
  , ⟨0xF00F, 0x800E, fun f => .shl f.x f.y⟩ ]

/-- Rows 19 to 25 of R74. -/
def rows19to25 : List Row :=
  [ ⟨0xF00F, 0x9000, fun f => .sneReg f.x f.y⟩
  , ⟨0xF000, 0xA000, fun f => .ldI f.nnn⟩
  , ⟨0xF000, 0xB000, fun f => .jpV0 f.nnn⟩
  , ⟨0xF000, 0xC000, fun f => .rnd f.x f.nn⟩
  , ⟨0xF000, 0xD000, fun f => .drw f.x f.y f.n⟩
  , ⟨0xF0FF, 0xE09E, fun f => .skp f.x⟩
  , ⟨0xF0FF, 0xE0A1, fun f => .sknp f.x⟩ ]

/-- Rows 26 to 34 of R74: op 0xF, told apart by NN. -/
def rows26to34 : List Row :=
  [ ⟨0xF0FF, 0xF007, fun f => .ldVxDt f.x⟩
  , ⟨0xF0FF, 0xF00A, fun f => .ldVxK f.x⟩
  , ⟨0xF0FF, 0xF015, fun f => .ldDtVx f.x⟩
  , ⟨0xF0FF, 0xF018, fun f => .ldStVx f.x⟩
  , ⟨0xF0FF, 0xF01E, fun f => .addI f.x⟩
  , ⟨0xF0FF, 0xF029, fun f => .ldF f.x⟩
  , ⟨0xF0FF, 0xF033, fun f => .ldB f.x⟩
  , ⟨0xF0FF, 0xF055, fun f => .ldMemVx f.x⟩
  , ⟨0xF0FF, 0xF065, fun f => .ldVxMem f.x⟩ ]

/-- The opcode map of R74. -/
def opcodeTable : List Row := rows1to9 ++ rows10to18 ++ rows19to25 ++ rows26to34

/-- Does the row select the word: `w AND mask = match` (R74)? -/
def Row.selects (r : Row) (w : Word) : Bool := (w &&& r.mask) == r.val

/-- The instruction of a word: its row's, or none for an unimplemented word (R73, R93). -/
def decodeWord (w : Word) : Option Instr :=
  (opcodeTable.find? (·.selects w)).map (·.instr (fields w))

/-- Why bytes are no instruction. -/
inductive DecodeError where
  /-- Fewer than the two bytes every instruction has (R70). -/
  | truncated
  /-- The word matches no row of R74: an unimplemented word (R76). It is no fault: a step runs it as a no-op (R94). -/
  | unimplemented (w : Word)
  deriving DecidableEq, Repr

/-- Big-endian: the byte at the lower address holds bits 15..8 (20_memory.md R53). -/
def wordOfBytes (hi lo : Byte) : Word := BitVec.ofNat 16 (hi.toNat * 256 + lo.toNat)

/-- The two bytes of a word in the order memory holds them (20_memory.md R53). -/
def bytesOfWord (w : Word) : List Byte := [w.extractLsb' 8 8, w.extractLsb' 0 8]

/-- The decoder on bytes: the first instruction and the bytes after it, or why there is none. -/
def decode : List Byte → Except DecodeError (Instr × List Byte)
  | hi :: lo :: rest =>
    match decodeWord (wordOfBytes hi lo) with
    | some i => .ok (i, rest)
    | none => .error (.unimplemented (wordOfBytes hi lo))
  | _ => .error .truncated

/-- `w = op*4096 + X*256 + Y*16 + N` (R71). -/
def wordXYN (op x y n : Nat) : Word := BitVec.ofNat 16 (op * 4096 + x * 256 + y * 16 + n)

/-- The word with a byte immediate: `NN = Y*16 + N` (R71). -/
def wordXNN (op x nn : Nat) : Word := BitVec.ofNat 16 (op * 4096 + x * 256 + nn)

/-- The word with an address: `NNN = X*256 + NN` (R71). -/
def wordNNN (op nnn : Nat) : Word := BitVec.ofNat 16 (op * 4096 + nnn)

/-- The word of an instruction, from the patterns of R74. -/
def encode : Instr → Word
  | .cls => wordNNN 0x0 0x0E0
  | .ret => wordNNN 0x0 0x0EE
  | .jp nnn => wordNNN 0x1 nnn.toNat
  | .call nnn => wordNNN 0x2 nnn.toNat
  | .seImm x nn => wordXNN 0x3 x nn.toNat
  | .sneImm x nn => wordXNN 0x4 x nn.toNat
  | .seReg x y => wordXYN 0x5 x y 0x0
  | .ldImm x nn => wordXNN 0x6 x nn.toNat
  | .addImm x nn => wordXNN 0x7 x nn.toNat
  | .ldReg x y => wordXYN 0x8 x y 0x0
  | .orReg x y => wordXYN 0x8 x y 0x1
  | .andReg x y => wordXYN 0x8 x y 0x2
  | .xorReg x y => wordXYN 0x8 x y 0x3
  | .addReg x y => wordXYN 0x8 x y 0x4
  | .sub x y => wordXYN 0x8 x y 0x5
  | .shr x y => wordXYN 0x8 x y 0x6
  | .subn x y => wordXYN 0x8 x y 0x7
  | .shl x y => wordXYN 0x8 x y 0xE
  | .sneReg x y => wordXYN 0x9 x y 0x0
  | .ldI nnn => wordNNN 0xA nnn.toNat
  | .jpV0 nnn => wordNNN 0xB nnn.toNat
  | .rnd x nn => wordXNN 0xC x nn.toNat
  | .drw x y n => wordXYN 0xD x y n
  | .skp x => wordXNN 0xE x 0x9E
  | .sknp x => wordXNN 0xE x 0xA1
  | .ldVxDt x => wordXNN 0xF x 0x07
  | .ldVxK x => wordXNN 0xF x 0x0A
  | .ldDtVx x => wordXNN 0xF x 0x15
  | .ldStVx x => wordXNN 0xF x 0x18
  | .addI x => wordXNN 0xF x 0x1E
  | .ldF x => wordXNN 0xF x 0x29
  | .ldB x => wordXNN 0xF x 0x33
  | .ldMemVx x => wordXNN 0xF x 0x55
  | .ldVxMem x => wordXNN 0xF x 0x65

/-- The bits of an instruction as spec/opcode_table.json numbers them: those above `nbits` are 0. An instruction
is one 16-bit word (R70), so bits above 15 belong to no instruction. -/
def tableWord (nbits w : Nat) : Word := BitVec.ofNat 16 (w % 2 ^ nbits)

/-- The instruction the decoder reads from a word given as the opcode table numbers its bits, laid out as memory
holds it (high byte first, R53). -/
def decodeTableWord (nbits w : Nat) : Option Instr :=
  match decode (bytesOfWord (tableWord nbits w)) with
  | .ok (i, _) => some i
  | .error _ => none

end Sys2Proof
end

