-- ==== Sys2Proof/Config.lean ====
section
/-! DEFINITION. The two parameters of the block (00_scope.md R6, 40_cycle.md R99), what comes from outside it (10_state.md
R25, R37), and the free value that stands for what comes once nothing else says it. -/

namespace Sys2Proof

/-- `Config` of 40_cycle.md R99. A machine keeps its configuration for ever: no transition writes it. -/
structure Config where
  /-- STRICT_PC: does a fetch at an odd PC, or at a PC below 0x200, fault (R91)? -/
  strictPc : Bool
  /-- FONT_ROM: the 80 bytes at 0x050..0x09F at reset (10_state.md R36). -/
  fontRom : Vector Byte 80
  deriving DecidableEq, Repr

/-- The inputs one Step may sample, `Draws` of 40_cycle.md R99: the ports key_down, last_key and rand (10_state.md R37). -/
structure Draws where
  /-- `draw_keydown(k)`: is key k held down? -/
  keyDown : Vector Bool 16
  /-- `draw_lastkey()`: the key most recently observed pressed, if any. -/
  lastKey : Option (Fin 16)
  /-- `draw_rand()`: a random byte. -/
  rand : Byte
  deriving DecidableEq, Repr, Inhabited

/-- One strobe from outside (10_state.md R25, R37): the three agents' operations. -/
inductive Input where
  /-- The engine does one Step, and its draws are these. -/
  | step (d : Draws)
  /-- The timebase does one Tick. -/
  | tick
  /-- The host does Reset(rom). -/
  | reset (rom : List Byte)
  deriving DecidableEq, Repr, Inhabited

/-- The n-th strobe that nothing else supplies: any agent's operation, with any draws and any ROM. So every infinite
sequence of them is one the model allows (10_state.md R25, R32, 44_alu.md R143, log 2). -/
opaque Config.freeStrobe : Nat → Input

end Sys2Proof
end

