-- ==== Sys2Proof/Machine/State.lean ====
section
/-! DEFINITION. The state of the block (10_state.md R20), its parameters, its ports, and the state after reset. -/

namespace Sys2Proof.Machine

/-- The kinds of FAULT (60_exceptions.md R180). A machine that takes one goes to a NEXT state with FAULT set (R184). -/
inductive FaultKind where
  /-- 2NNN with SP = 15 (R181). -/
  | stackOverflow
  /-- 00EE with SP = 0 (R182). -/
  | stackUnderflow
  /-- DXYN (N >= 1), FX33, FX55, FX65: an accessed address >= 0x1000 (20_memory.md R55). -/
  | memoryOutOfRange
  /-- Fetch: PC > 0xFFE, or under STRICT_PC an odd PC or PC < 0x200 (40_cycle.md R91). -/
  | pcOutOfRange
  /-- EX9E, EXA1: V[X] > 0x0F (43_skip.md R127). -/
  | keyOutOfRange
  deriving DecidableEq, Repr

/-- What FAULT holds once it is set (10_state.md R33). -/
structure FaultRecord where
  /-- Which fault. -/
  kind : FaultKind
  /-- The address of the instruction or fetch that faulted. -/
  fpc : Word
  /-- The instruction word, or 0x0000 for a fetch fault. -/
  fword : Word
  deriving DecidableEq, Repr

/-- The MODEL'S OWN home for what comes from outside the block (log 1). No field of it is state of the core (R32, R35). -/
structure Env where
  /-- The input ports as sampled by the current Step. -/
  ports : Draws
  /-- The strobes to come, oldest first; past its end every strobe is a free value (log 2). -/
  script : List Input
  /-- How many free strobes have been taken. -/
  drawn : Nat
  deriving DecidableEq, Repr

/-- `Event` of 40_cycle.md R99: what a transition shows on the output ports `unimpl` and `fault` (10_state.md R38). -/
inductive Event where
  /-- NoEvent. -/
  | noEvent
  /-- Unimpl(w): the Step executed an unimplemented word (60_exceptions.md R188). -/
  | unimpl (w : Word)
  /-- Faulted(kind): the Step raised a fault. -/
  | faulted (k : FaultKind)
  deriving DecidableEq, Repr

/-- The written part of `mem`: strictly rising addresses, no entry equal to the reset content of its address
(`Memory.wf`); an unlisted address holds its reset content (`Memory.unlisted`, 20_memory.md R51, R57). -/
abbrev Memory := List Host.Cell

/-- The block's state (10_state.md R20), its parameters, and the model's own environment and event. -/
structure State where
  /-- `mem`, 4096 bytes (R30). -/
  mem : Memory
  /-- `V`, V0..VF (R21). -/
  v : Vector Byte 16
  /-- `I`, the index register (R24). -/
  i : Word
  /-- `PC`, the program counter (R23). -/
  pc : Word
  /-- `stack`, 16 return-address slots; slot 0 is never used (R27). -/
  stack : Vector Word 16
  /-- `SP`, how many return addresses are held, 0..15 (R26). -/
  sp : Fin 16
  /-- `DT`, the delay timer (R28). -/
  dt : Byte
  /-- `ST`, the sound timer (R29). -/
  st : Byte
  /-- `disp`, the display buffer (R31). -/
  disp : Display
  /-- `FAULT`: `none` while the machine runs (R33). -/
  fault : Option FaultRecord
  /-- STRICT_PC and FONT_ROM (00_scope.md R6). -/
  cfg : Config
  /-- The MODEL'S OWN: the world outside the block (log 1). -/
  env : Env
  /-- The MODEL'S OWN: the output event of the last transition (log 6). -/
  event : Event
  deriving DecidableEq, Repr

/-- Why a run has no further state. -/
inductive Fault where
  /-- Raised by `Reset(rom)` alone, when the ROM is longer than 3584 bytes: there is no machine state after it, and
  the output `load_error` pulses (70_reset_and_hazards.md R201, R203). Safe: the spec ends the run here (log 7). -/
  | romTooLarge
  deriving DecidableEq, Repr

/-- Why an instruction has no meaning. -/
inductive Refusal where
  /-- Raised by no arm of `exec`: every instruction of the opcode table has its meaning. Safe. -/
  | notModelled (mnemonic : String)
  deriving DecidableEq, Repr

/-- What a transition ends in. -/
abbrev Result := Host.Outcome State Fault Refusal

/-- The configuration of the machine after reset: STRICT_PC true and the default FONT_ROM (00_scope.md R6, log 4). -/
def configAtReset : Config := { strictPc := true, fontRom := defaultFontRom }

/-- The environment of the machine after reset. DESIGN CHOICE: nothing pending, no key, a zero byte (log 3). -/
def envAtReset : Env :=
  { ports := { keyDown := Vector.replicate 16 false, lastKey := none, rand := 0 }, script := [], drawn := 0 }

/-- The state `Reset(rom)` builds for the empty ROM (70_reset_and_hazards.md R200, R202; log 8). -/
def State.reset : State where
  mem := []
  v := Vector.replicate 16 0
  i := 0
  pc := 0x200
  stack := Vector.replicate 16 0
  sp := 0
  dt := 0
  st := 0
  disp := Vector.replicate 32 (Vector.replicate 64 false)
  fault := none
  cfg := configAtReset
  env := envAtReset
  event := .noEvent

end Sys2Proof.Machine
end

