-- ==== Sys2Proof/Machine/Ops.lean ====
section
/-! DEFINITION. The operations over state that the meanings share: memory, the PC, the stack, taking a fault, the
countdown, reset, and the handing over of inputs. -/

namespace Sys2Proof.Machine

/-! ## Memory (20_memory.md) -/

/-- MEM_SIZE: addresses 0x000..0xFFF (R50). -/
def memSize : Nat := 0x1000

/-- What an address that nothing has written holds: the reset content, FONT_ROM at 0x050..0x09F and 0x00
elsewhere (R51). Above 0xFFF there is no memory, no access of the machine gets there, and this answers 0x00 (log 13). -/
def Memory.unlisted (font : Vector Byte 80) (a : Nat) : Byte :=
  if h : 0x050 ≤ a ∧ a < 0x0A0 then font[a - 0x050] else 0

/-- The byte at an address (R57). -/
def Memory.read (font : Vector Byte 80) (m : Memory) (a : Nat) : Byte :=
  match m with
  | [] => Memory.unlisted font a
  | (k, b) :: rest => if k = a then b else Memory.read font rest a

/-- The entry for `a` put at its place in a rising list. -/
def Memory.place (a : Nat) (b : Byte) : Memory → Memory
  | [] => [(a, b)]
  | (k, c) :: rest =>
    if a < k then (a, b) :: (k, c) :: rest
    else if a = k then (a, b) :: rest
    else (k, c) :: Memory.place a b rest

/-- One byte written (R57). Writing the reset content of an address unlists it. -/
def Memory.write (font : Vector Byte 80) (m : Memory) (a : Nat) (b : Byte) : Memory :=
  if b = Memory.unlisted font a then m.filter (fun c => c.1 != a) else m.place a b

/-- Bytes written at `a`, `a + 1`, … in turn (00_scope.md R11). -/
def Memory.writeList (font : Vector Byte 80) (m : Memory) (a : Nat) : List Byte → Memory
  | [] => m
  | b :: bs => Memory.writeList font (m.write font a b) (a + 1) bs

/-- The canonical form: strictly rising addresses, all in the address space, none listed with its reset content. -/
def Memory.wf (font : Vector Byte 80) (m : Memory) : Bool :=
  decide (m.Pairwise fun c d => c.1 < d.1) &&
    m.all fun c => decide (c.1 < memSize) && c.2 != Memory.unlisted font c.1

/-- The byte of `mem` at an address. -/
def State.readByte (s : State) (a : Nat) : Byte := Memory.read s.cfg.fontRom s.mem a

/-- Are `a .. a+n-1` all addresses of `mem`? They are natural numbers with no wrap (R11, R55); with n = 0 there
is no address to check. -/
def inRange (a n : Nat) : Bool := n == 0 || decide (a + n ≤ memSize)

/-- `MemRead(a, n)`: the n bytes from `a`, or none where the access raises MemoryOutOfRange (R11). -/
def State.memRead (s : State) (a n : Nat) : Option (List Byte) :=
  if inRange a n then some ((List.range n).map fun k => s.readByte (a + k)) else none

/-- `MemWrite(a, n, bs)`: every byte is checked before any is written; none where it raises MemoryOutOfRange (R11, R55). -/
def State.memWrite (s : State) (a : Nat) (bs : List Byte) : Option State :=
  if inRange a bs.length then some { s with mem := Memory.writeList s.cfg.fontRom s.mem a bs } else none

/-! ## The PC and the stack -/

/-- PC replaced: a jump's or a return's target, not checked here (42_flow.md R114). -/
def State.withPc (s : State) (t : Word) : State := { s with pc := t }

/-- `PC <- PC + 2`: the fetch advance "before dispatch" (40_cycle.md R90). -/
def State.advance (s : State) : State := s.withPc (s.pc + 2)

/-- A taken skip adds 2 to the advanced PC (43_skip.md R120). -/
def State.skipIf (s : State) (c : Bool) : State := if c then s.withPc (s.pc + 2) else s

/-- "PC is rewound by 2" (46_timer_key.md R161). -/
def State.rewind (s : State) : State := s.withPc (s.pc - 2)

/-- `stack[SP+1] <- PC; SP <- SP + 1` (42_flow.md R112), for SP below 15. -/
def State.pushPc (s : State) : State :=
  { s with stack := s.stack.set (s.sp + 1 : Fin 16) s.pc, sp := s.sp + 1 }

/-- `PC <- stack[SP]; SP <- SP - 1` (42_flow.md R110), for SP above 0. The slot is not cleared (R27). -/
def State.popPc (s : State) : State := { s with pc := s.stack[s.sp], sp := s.sp - 1 }

/-! ## Other fields -/

/-- I replaced. -/
def State.withI (s : State) (a : Word) : State := { s with i := a }

/-- DT replaced. -/
def State.withDt (s : State) (b : Byte) : State := { s with dt := b }

/-- ST replaced. -/
def State.withSt (s : State) (b : Byte) : State := { s with st := b }

/-- The display replaced. -/
def State.withDisp (s : State) (d : Display) : State := { s with disp := d }

/-- All sixteen general registers replaced. -/
def State.withV (s : State) (v : Vector Byte 16) : State := { s with v := v }

/-! ## Taking a fault, and the way out of one -/

/-- Fault entry (60_exceptions.md R184, 00_scope.md R12). `s` is the state at the faulting instruction, with its PC:
nothing of the step is kept but FAULT, and the event that reports it. -/
def State.raise (s : State) (k : FaultKind) (fword : Word) : State :=
  { s with fault := some { kind := k, fpc := s.pc, fword := fword }, event := .faulted k }

/-- `halted` is `FAULT != None` (10_state.md R33). -/
def State.halted (s : State) : Bool := s.fault.isSome

/-- `Reset(rom)` from any state, the only way out of a fault (70_reset_and_hazards.md R200, R201, R203). The
parameters and the world outside the block are not rebuilt (log 8). -/
def State.load (s : State) (rom : List Byte) : Result :=
  if romFits rom then
    .next { State.reset with
      mem := Memory.writeList s.cfg.fontRom [] 0x200 rom, cfg := s.cfg, env := s.env }
  else .fault .romTooLarge

/-! ## The timers and the unimplemented word -/

/-- One count down, clamped at zero (60_exceptions.md R191). -/
def countDown (b : Byte) : Byte := if b = 0 then 0 else b - 1

/-- `Tick` (60_exceptions.md R191). -/
def State.tick (s : State) : State :=
  if s.halted then s else (s.withDt (countDown s.dt)).withSt (countDown s.st)

/-- An unimplemented word: the fetch advance and the event, nothing else (40_cycle.md R94, 60_exceptions.md R188). -/
def State.unimplemented (s : State) (w : Word) : State := { s.advance with event := .unimpl w }

/-! ## Inputs -/

/-- The strobe whose transition is next: the first of the script, and past its end a free one (10_state.md R25, log 1,
log 2). -/
def State.strobe (s : State) : Input :=
  match s.env.script with
  | [] => Config.freeStrobe s.env.drawn
  | i :: _ => i

/-- The world outside once that strobe is taken; the next free one is another. -/
def Env.afterStrobe (e : Env) : Env :=
  match e.script with
  | [] => { e with drawn := e.drawn + 1 }
  | _ :: rest => { e with script := rest }

/-- A transition begins: its strobe is taken, and no event stands. -/
def State.accept (s : State) : State := { s with env := s.env.afterStrobe, event := .noEvent }

/-- A Step begins: its strobe is taken and its draws stand on the input ports (00_scope.md R13). -/
def State.beginStep (s : State) (d : Draws) : State :=
  { s with env := { s.env.afterStrobe with ports := d }, event := .noEvent }

end Sys2Proof.Machine
end

