-- ==== Sys2Proof/Machine/Operands.lean ====
section
/-! DEFINITION. The operand forms: general registers, I-indirect addresses, immediates, key numbers (30_encoding.md R72). -/

namespace Sys2Proof.Machine

/-- `V[x]` (10_state.md R21). -/
def State.reg (s : State) (x : Reg) : Byte := s.v[x]

/-- `V[x] <- b`. No register is hardwired or aliased (R21). -/
def State.setReg (s : State) (x : Reg) (b : Byte) : State := { s with v := s.v.set x b }

/-- `V[0], …, V[x]`: the registers FX55 stores (45_index_memory.md R154). -/
def State.regsTo (s : State) (x : Reg) : List Byte := s.v.toList.take (x + 1)

/-- `for k: V[k] <- bs[k]`: register k takes the k-th byte where there is one (45_index_memory.md R155). -/
def State.loadRegs (s : State) (bs : List Byte) : State :=
  s.withV (Vector.ofFn fun k : Fin 16 => (bs[k.val]?).getD (s.reg k))

/-- The address of byte 0 of an access through I; byte k is at this plus k, a natural number (45_index_memory.md R156). -/
def State.dataAddr (s : State) : Nat := s.i.toNat

/-- `zext_16(NNN)` (30_encoding.md R72). -/
def zextAddr (nnn : Addr) : Word := nnn.setWidth 16

/-- `zext_16(b)`. -/
def zextByte (b : Byte) : Word := b.setWidth 16

/-- A key number as the byte FX0A writes (46_timer_key.md R161). -/
def keyByte (k : Fin 16) : Byte := BitVec.ofNat 8 k.val

/-- The key a register byte names, or none above 0x0F (43_skip.md R127). -/
def keyOf (b : Byte) : Option (Fin 16) := if h : b.toNat < 16 then some ⟨b.toNat, h⟩ else none

/-- The decimal digits of a byte, hundreds first (45_index_memory.md R153). -/
def decimalDigits (b : Byte) : List Byte :=
  [BitVec.ofNat 8 (b.toNat / 100), BitVec.ofNat 8 (b.toNat / 10 % 10), BitVec.ofNat 8 (b.toNat % 10)]

/-- `0x050 + 5 * zext_16(b)`: where glyph b stands, not masked (45_index_memory.md R152). -/
def glyphAddr (b : Byte) : Word := 0x050 + 5 * zextByte b

end Sys2Proof.Machine
end

