-- ==== Sys2Proof/Machine/Flags.lean ====
section
/-! DEFINITION. The flag output VF: its five arithmetic conditions and its write (44_alu.md R131, R144). The sixth
condition, the sprite collision, comes with the drawing itself (Display.lean). -/

namespace Sys2Proof.Machine

/-- A condition as VF holds it: 0x01 or 0x00. -/
def flagByte (c : Bool) : Byte := if c then 1 else 0

/-- `VF <- flag`, the last write of a flag-writing instruction (10_state.md R22). -/
def State.setFlag (s : State) (c : Bool) : State := s.setReg regF (flagByte c)

/-- 8XY4: the 9-bit sum is above 255 (R138). -/
def carryOf (a b : Byte) : Bool := decide (a.toNat + b.toNat > 255)

/-- 8XY5 and 8XY7: `a - b` needs no borrow, equality included (R139, R141). -/
def noBorrow (a b : Byte) : Bool := decide (a.toNat ≥ b.toNat)

/-- 8XY6: bit 0, shifted out to the right (R140). -/
def lowBit (a : Byte) : Bool := a.getLsbD 0

/-- 8XYE: bit 7, shifted out to the left (R142). -/
def highBit (a : Byte) : Bool := a.getLsbD 7

/-- The result to V[x], then the flag to VF: with x = F the flag stands (R131). -/
def State.setResultAndFlag (s : State) (x : Reg) (r : Byte) (c : Bool) : State := (s.setReg x r).setFlag c

end Sys2Proof.Machine
end

