-- ==== Sys2Proof/Machine/Alu.lean ====
section
/-! DEFINITION. Registers and arithmetic (44_alu.md). Every meaning starts at the instruction's address, makes the
fetch advance of 40_cycle.md R90 itself, and reads its operands from the state it is given (00_scope.md R10). -/

namespace Sys2Proof.Machine

/-- 6XNN: `V[X] <- NN` (R132). -/
def execLdImm (x : Reg) (nn : Byte) (s : State) : Result := .next (s.advance.setReg x nn)

/-- 7XNN: `V[X] <- V[X] +8 NN`, no flag (R133). -/
def execAddImm (x : Reg) (nn : Byte) (s : State) : Result := .next (s.advance.setReg x (s.reg x + nn))

/-- 8XY0: `V[X] <- V[Y]` (R134). -/
def execLdReg (x y : Reg) (s : State) : Result := .next (s.advance.setReg x (s.reg y))

/-- 8XY1: `V[X] <- V[X] OR V[Y]`, VF not reset (R135). -/
def execOrReg (x y : Reg) (s : State) : Result := .next (s.advance.setReg x (s.reg x ||| s.reg y))

/-- 8XY2: `V[X] <- V[X] AND V[Y]` (R136). -/
def execAndReg (x y : Reg) (s : State) : Result := .next (s.advance.setReg x (s.reg x &&& s.reg y))

/-- 8XY3: `V[X] <- V[X] XOR V[Y]` (R137). -/
def execXorReg (x y : Reg) (s : State) : Result := .next (s.advance.setReg x (s.reg x ^^^ s.reg y))

/-- 8XY4: the sum mod 256, then the carry to VF (R138). -/
def execAddReg (x y : Reg) (s : State) : Result :=
  .next (s.advance.setResultAndFlag x (s.reg x + s.reg y) (carryOf (s.reg x) (s.reg y)))

/-- 8XY5: `V[X] - V[Y]` mod 256, then "no borrow" to VF (R139). -/
def execSub (x y : Reg) (s : State) : Result :=
  .next (s.advance.setResultAndFlag x (s.reg x - s.reg y) (noBorrow (s.reg x) (s.reg y)))

/-- 8XY6: V[X] shifted right by one, then the bit shifted out to VF; Y is not read (R140). -/
def execShr (x _y : Reg) (s : State) : Result :=
  .next (s.advance.setResultAndFlag x (s.reg x >>> 1) (lowBit (s.reg x)))

/-- 8XY7: `V[Y] - V[X]` mod 256, then "no borrow" to VF (R141). -/
def execSubn (x y : Reg) (s : State) : Result :=
  .next (s.advance.setResultAndFlag x (s.reg y - s.reg x) (noBorrow (s.reg y) (s.reg x)))

/-- 8XYE: V[X] shifted left by one, then the bit shifted out to VF; Y is not read (R142). -/
def execShl (x _y : Reg) (s : State) : Result :=
  .next (s.advance.setResultAndFlag x (s.reg x <<< 1) (highBit (s.reg x)))

/-- CXNN: `V[X] <- draw_rand() AND NN` (R143). -/
def execRnd (x : Reg) (nn : Byte) (s : State) : Result := .next (s.advance.setReg x (s.env.ports.rand &&& nn))

end Sys2Proof.Machine
end

