-- ==== Sys2Proof/Machine/Display.lean ====
section
/-! DEFINITION. The display (41_display.md): clearing, and drawing a sprite by XOR with clipping and collision. -/

namespace Sys2Proof.Machine

/-- Every pixel off (R100). -/
def blankDisplay : Display := Vector.replicate 32 (Vector.replicate 64 false)

/-- Where the pseudocode of R101 stands: the local copy `nd` of the display, and `hit`. -/
structure Drawing where
  /-- `nd`. -/
  disp : Display
  /-- `hit`: a pixel that was on has been turned off. -/
  hit : Bool
  deriving DecidableEq, Repr

/-- One sprite bit of 1 at column x, row y: the pixel is toggled, and turning one off is a hit. Past the bottom or the
right edge it is dropped: not drawn, not wrapped, not counted (R101, R103). -/
def Drawing.plot (d : Drawing) (x y : Nat) : Drawing :=
  if h : y < 32 ∧ x < 64 then
    { disp := d.disp.set y (d.disp[y].set x (!d.disp[y][x])), hit := d.hit || d.disp[y][x] }
  else d

/-- One row byte at row y: bit 7 is the leftmost column x0, bit 0 is column x0+7 (R102). -/
def Drawing.row (d : Drawing) (x0 y : Nat) (b : Byte) : Drawing :=
  (List.range 8).foldl (fun d c => if b.getLsbD (7 - c) then d.plot (x0 + c) y else d) d

/-- The row bytes from row y downwards (R102). -/
def Drawing.rows (d : Drawing) (x0 y : Nat) : List Byte → Drawing
  | [] => d
  | b :: bs => Drawing.rows (d.row x0 y b) x0 (y + 1) bs

/-- 00E0: every pixel off (R100). -/
def execCls (s : State) : Result := .next (s.advance.withDisp blankDisplay)

/-- DXYN: N rows from I, drawn at (V[X] mod 64, V[Y] mod 32); then the collision to VF (R101). -/
def execDrw (x y : Reg) (n : Fin 16) (s : State) : Result :=
  match s.memRead s.dataAddr n.val with
  | none => .next (s.raise .memoryOutOfRange (encode (.drw x y n)))
  | some bytes =>
    let d := Drawing.rows { disp := s.disp, hit := false } ((s.reg x).toNat % 64) ((s.reg y).toNat % 32) bytes
    .next ((s.advance.withDisp d.disp).setFlag d.hit)

end Sys2Proof.Machine
end

