-- ==== Sys2Proof/Machine/Flow.lean ====
section
/-! DEFINITION. Jumps, calls and returns (42_flow.md). No target is checked when it is written (R114). -/

namespace Sys2Proof.Machine

/-- 00EE: pop the PC; an empty stack is StackUnderflow (R110). -/
def execRet (s : State) : Result :=
  .next (if s.sp = 0 then s.raise .stackUnderflow (encode .ret) else s.advance.popPc)

/-- 1NNN: `PC <- zext_16(NNN)` (R111). -/
def execJp (nnn : Addr) (s : State) : Result := .next (s.advance.withPc (zextAddr nnn))

/-- 2NNN: push the advanced PC and jump; SP = 15 is StackOverflow (R112). -/
def execCall (nnn : Addr) (s : State) : Result :=
  .next (if s.sp = 15 then s.raise .stackOverflow (encode (.call nnn)) else s.advance.pushPc.withPc (zextAddr nnn))

/-- BNNN: `PC <- zext_16(V[0]) + zext_16(NNN)`, V0 whatever the word's X field (R113). -/
def execJpV0 (nnn : Addr) (s : State) : Result :=
  .next (s.advance.withPc (zextByte (s.reg 0) + zextAddr nnn))

end Sys2Proof.Machine
end

