-- ==== Sys2Proof/Machine/IndexMemory.lean ====
section
/-! DEFINITION. The index register and memory blocks (45_index_memory.md). Only ANNN, FX1E and FX29 write I (R156). -/

namespace Sys2Proof.Machine

/-- ANNN: `I <- zext_16(NNN)` (R150). -/
def execLdI (nnn : Addr) (s : State) : Result := .next (s.advance.withI (zextAddr nnn))

/-- FX1E: `I <- I +16 zext_16(V[X])`, no flag and no check (R151). -/
def execAddI (x : Reg) (s : State) : Result := .next (s.advance.withI (s.i + zextByte (s.reg x)))

/-- FX29: I points at the glyph of V[X] (R152). -/
def execLdF (x : Reg) (s : State) : Result := .next (s.advance.withI (glyphAddr (s.reg x)))

/-- FX33: the three digits of V[X] to I, I+1, I+2 (R153). -/
def execLdB (x : Reg) (s : State) : Result :=
  match s.advance.memWrite s.dataAddr (decimalDigits (s.reg x)) with
  | none => .next (s.raise .memoryOutOfRange (encode (.ldB x)))
  | some t => .next t

/-- FX55: V[0]..V[X] to I..I+X (R154). -/
def execLdMemVx (x : Reg) (s : State) : Result :=
  match s.advance.memWrite s.dataAddr (s.regsTo x) with
  | none => .next (s.raise .memoryOutOfRange (encode (.ldMemVx x)))
  | some t => .next t

/-- FX65: V[0]..V[X] from I..I+X (R155). -/
def execLdVxMem (x : Reg) (s : State) : Result :=
  match s.memRead s.dataAddr (x.val + 1) with
  | none => .next (s.raise .memoryOutOfRange (encode (.ldVxMem x)))
  | some bs => .next (s.advance.loadRegs bs)

end Sys2Proof.Machine
end

