-- ==== Sys2Proof/Machine/Skip.lean ====
section
/-! DEFINITION. The conditional skips (43_skip.md). -/

namespace Sys2Proof.Machine

/-- 3XNN: skip if V[X] = NN (R121). -/
def execSeImm (x : Reg) (nn : Byte) (s : State) : Result := .next (s.advance.skipIf (s.reg x == nn))

/-- 4XNN: skip if V[X] != NN (R122). -/
def execSneImm (x : Reg) (nn : Byte) (s : State) : Result := .next (s.advance.skipIf (s.reg x != nn))

/-- 5XY0: skip if V[X] = V[Y] (R123). -/
def execSeReg (x y : Reg) (s : State) : Result := .next (s.advance.skipIf (s.reg x == s.reg y))

/-- 9XY0: skip if V[X] != V[Y] (R124). -/
def execSneReg (x y : Reg) (s : State) : Result := .next (s.advance.skipIf (s.reg x != s.reg y))

/-- EX9E: skip if key V[X] is down; above 0x0F it is KeyOutOfRange (R125, R127). -/
def execSkp (x : Reg) (s : State) : Result :=
  match keyOf (s.reg x) with
  | none => .next (s.raise .keyOutOfRange (encode (.skp x)))
  | some k => .next (s.advance.skipIf s.env.ports.keyDown[k])

/-- EXA1: skip if key V[X] is up, that is not down; above 0x0F it is KeyOutOfRange (R126, R127). -/
def execSknp (x : Reg) (s : State) : Result :=
  match keyOf (s.reg x) with
  | none => .next (s.raise .keyOutOfRange (encode (.sknp x)))
  | some k => .next (s.advance.skipIf (!s.env.ports.keyDown[k]))

end Sys2Proof.Machine
end

