-- ==== Sys2Proof/Machine/TimerKey.lean ====
section
/-! DEFINITION. The timer instructions and the key wait (46_timer_key.md). -/

namespace Sys2Proof.Machine

/-- FX07: `V[X] <- DT` (R160). -/
def execLdVxDt (x : Reg) (s : State) : Result := .next (s.advance.setReg x s.dt)

/-- FX0A: the key reported goes to V[X]; while none is, the PC is rewound to this very word (R161). -/
def execLdVxK (x : Reg) (s : State) : Result :=
  .next (match s.env.ports.lastKey with
    | none => s.advance.rewind
    | some k => s.advance.setReg x (keyByte k))

/-- FX15: `DT <- V[X]` (R162). -/
def execLdDtVx (x : Reg) (s : State) : Result := .next (s.advance.withDt (s.reg x))

/-- FX18: `ST <- V[X]` (R163). -/
def execLdStVx (x : Reg) (s : State) : Result := .next (s.advance.withSt (s.reg x))

end Sys2Proof.Machine
end

