-- ==== Sys2Proof/Machine/Fetch.lean ====
section
/-! DEFINITION. Fetching an instruction (40_cycle.md R90, R91), and placing one where it will be fetched. -/

namespace Sys2Proof.Machine

/-- `check_pc`: above 0xFFE in every configuration; odd or below 0x200 under STRICT_PC (R91). -/
def pcFaults (strict : Bool) (pc : Word) : Bool :=
  decide (pc.toNat > 0xFFE) || (strict && (decide (pc.toNat % 2 = 1) || decide (pc.toNat < 0x200)))

/-- The two bytes at the PC, in the order memory holds them (20_memory.md R53). -/
def State.fetchBytes (s : State) : List Byte := [s.readByte s.pc.toNat, s.readByte (s.pc.toNat + 1)]

/-- The word at the PC: `mem[PC]*256 + mem[PC+1]` (20_memory.md R53). -/
def State.fetchWord (s : State) : Word := wordOfBytes (s.readByte s.pc.toNat) (s.readByte (s.pc.toNat + 1))

/-- The script with the engine's Step next: whatever else would be next, a tick, a reset or a free strobe, is put off by
one Step, whose draws are what stands on the ports (log 14). -/
def stepNext (e : Env) : List Input :=
  match e.script with
  | [] => [.step e.ports]
  | .step d :: rest => .step d :: rest
  | .tick :: rest => .step e.ports :: .tick :: rest
  | .reset rom :: rest => .step e.ports :: .reset rom :: rest

/-- A running machine whose next transition fetches the word at its PC: a halted one runs again, a PC that would
fault is moved to PROG_BASE (log 14). -/
def State.readyToFetch (s : State) : State :=
  { s with
    fault := none
    pc := if pcFaults s.cfg.strictPc s.pc then 0x200 else s.pc
    env := { s.env with script := stepNext s.env } }

/-- A word stored at the PC, high byte first. -/
def State.placeWord (s : State) (w : Word) : State :=
  { s with mem := Memory.writeList s.cfg.fontRom s.mem s.pc.toNat (bytesOfWord w) }

end Sys2Proof.Machine
end

