-- ==== Sys2Proof/Machine/Cycle.lean ====
section
/-! DEFINITION. One transition of the block: the engine's Step, the timebase's Tick or the host's Reset
(10_state.md R25), whichever strobe is next. -/

namespace Sys2Proof.Machine

/-- `Step` of 40_cycle.md R90, once its draws stand on the ports: a halted machine does nothing (R96); the PC is
checked (R91); the word is fetched, decoded and executed; an unimplemented word is a no-op (R94). -/
def State.engineStep (s : State) : Result :=
  if s.halted then .next s
  else if pcFaults s.cfg.strictPc s.pc then .next (s.raise .pcOutOfRange 0)
  else
    match decode s.fetchBytes with
    | .ok (i, _) => exec i s
    | .error _ => .next (s.unimplemented s.fetchWord)

/-- The next transition, one agent's whole operation: the strobe says whose (10_state.md R25, log 1, log 2). -/
def State.transition (s : State) : Result :=
  match s.strobe with
  | .step d => (s.beginStep d).engineStep
  | .tick => .next s.accept.tick
  | .reset rom => s.accept.load rom

end Sys2Proof.Machine
end

