-- ==== Sys2Proof/Machine/Step.lean ====
section
/-! DEFINITION. One step of the machine, and the placing of an instruction where it is fetched next. -/

namespace Sys2Proof.Machine

/-- One atomic transition of the block (10_state.md R25). -/
def step (s : State) : Host.Outcome State Fault Refusal := s.transition

/-- `s` with the instruction whose bits are `w` stored at the PC, and the engine about to fetch it (log 8, log 14). -/
def State.withFetchWord (s : State) (nbits w : Nat) : State := s.readyToFetch.placeWord (tableWord nbits w)

end Sys2Proof.Machine
end

