-- ==== Sys2Proof/Machine/Ports.lean ====
section
/-! DEFINITION. The output ports that are functions of the state (10_state.md R38). -/

namespace Sys2Proof.Machine

/-- `sound_on = (ST != 0)`, evaluated on every state (60_exceptions.md R192). -/
def State.soundOn (s : State) : Bool := s.st != 0

/-- The `display` port: pixel k is row k div 64, column k mod 64 (10_state.md R31, R38). -/
def State.displayPort (s : State) : Vector Bool 2048 :=
  Vector.ofFn fun k : Fin 2048 => s.disp[k.val / 64][k.val % 64]

/-- The code of a fault kind (60_exceptions.md R180). -/
def FaultKind.code : FaultKind → BitVec 3
  | .stackOverflow => 1
  | .stackUnderflow => 2
  | .memoryOutOfRange => 3
  | .pcOutOfRange => 4
  | .keyOutOfRange => 5

/-- The `fault` port's code: 0 while FAULT = None (R180). -/
def State.faultCode (s : State) : BitVec 3 :=
  match s.fault with
  | none => 0
  | some f => f.kind.code

/-- The `unimpl` pulse: the word, when the last transition executed an unimplemented one (60_exceptions.md R188). -/
def State.unimplPulse (s : State) : Option Word :=
  match s.event with
  | .unimpl w => some w
  | .noEvent => none
  | .faulted _ => none

end Sys2Proof.Machine
end

