-- ==== Sys2Proof/Safety.lean ====
section
/-! DEFINITION. The terms in which claims speak of a run: what a transition is allowed to change, when it is a Step,
and the invariants of the machine. -/

namespace Sys2Proof.Machine

/-- A machine that runs: `FAULT = None` (40_cycle.md R96). A safe run is one whose states all run. -/
def State.Running (s : State) : Prop := s.fault = none

/-- The word at the PC may be fetched (40_cycle.md R91). -/
def State.Fetchable (s : State) : Prop := pcFaults s.cfg.strictPc s.pc = false

/-- The machine runs, and the word that its next Step fetches at the PC is the instruction `i`: the fetch check of R90 and
R91 is part of the term. For R98's terms that is the model's own reading (DESIGN CHOICE, log 16). -/
def State.At (s : State) (i : Instr) : Prop := s.Running ∧ s.Fetchable ∧ decodeWord s.fetchWord = some i

/-- Parked: the word at the PC is a jump to itself (40_cycle.md R98). DESIGN CHOICE: a state whose fetch faults (R91) is not
called parked; R98 leaves it open and says that a parked Step changes nothing, which a faulting fetch breaks (log 16). -/
def State.Parked (s : State) : Prop := ∃ nnn : Addr, s.At (.jp nnn) ∧ nnn.toNat = s.pc.toNat

/-- Blocked: the word at the PC is FX0A (40_cycle.md R98). DESIGN CHOICE: as with parked, its fetch must not fault (log 16). -/
def State.Blocked (s : State) : Prop := ∃ x : Reg, s.At (.ldVxK x)

/-- The next transition of `s` is a Step of the engine, and `s'` is `s` when it begins: the strobe taken, its draws on
the input ports, no event standing; nothing of the block has changed (00_scope.md R13, log 1, log 2). -/
def StepBegins (s s' : State) : Prop :=
  ∃ d, s.strobe = .step d ∧ s' = { s with env := { s.env.afterStrobe with ports := d }, event := .noEvent }

/-- The state `n` transitions later, or what has ended the run before that. -/
def State.after (s : State) : Nat → Result
  | 0 => .next s
  | n + 1 =>
    match step s with
    | .next t => t.after n
    | .fault r => .fault r
    | .refused r => .refused r

/-- A part of the block's state (10_state.md R20, R40), the PC apart. -/
inductive Part where
  /-- V0..VF. -/
  | regs
  /-- I. -/
  | index
  /-- The return stack and SP. -/
  | stack
  /-- DT. -/
  | delay
  /-- ST. -/
  | sound
  /-- mem. -/
  | memory
  /-- disp. -/
  | display
  /-- FAULT. -/
  | fault
  deriving DecidableEq, Repr

/-- From `s` to `t` only the listed parts of the block, and the PC, may have changed; STRICT_PC and FONT_ROM never do.
Memory is compared byte by byte, as it reads. -/
def OnlyChanges (parts : List Part) (s t : State) : Prop :=
  (.regs ∉ parts → ∀ r, t.reg r = s.reg r) ∧
  (.index ∉ parts → t.i = s.i) ∧
  (.stack ∉ parts → t.stack = s.stack ∧ t.sp = s.sp) ∧
  (.delay ∉ parts → t.dt = s.dt) ∧
  (.sound ∉ parts → t.st = s.st) ∧
  (.memory ∉ parts → ∀ a, t.readByte a = s.readByte a) ∧
  (.display ∉ parts → t.disp = s.disp) ∧
  (.fault ∉ parts → t.fault = s.fault) ∧
  t.cfg = s.cfg

/-- Neither the world outside the block nor the output event has changed. -/
def SameOutside (s t : State) : Prop := t.env = s.env ∧ t.event = s.event

/-- The parts of the state an instruction may write beyond the PC: the access matrix (10_state.md R40). -/
def Instr.writes : Instr → List Part
  | .cls => [.display]
  | .ret | .call _ => [.stack]
  | .jp _ | .jpV0 _ => []
  | .seImm _ _ | .sneImm _ _ | .seReg _ _ | .sneReg _ _ | .skp _ | .sknp _ => []
  | .ldImm _ _ | .addImm _ _ | .ldReg _ _ | .orReg _ _ | .andReg _ _ | .xorReg _ _ | .rnd _ _ => [.regs]
  | .addReg _ _ | .sub _ _ | .shr _ _ | .subn _ _ | .shl _ _ => [.regs]
  | .ldI _ | .addI _ | .ldF _ => [.index]
  | .drw _ _ _ => [.regs, .display]
  | .ldVxDt _ | .ldVxK _ | .ldVxMem _ => [.regs]
  | .ldDtVx _ => [.delay]
  | .ldStVx _ => [.sound]
  | .ldB _ | .ldMemVx _ => [.memory]

/-- The general registers an instruction may write, VF as its flag included (10_state.md R40, R22). -/
def Instr.writesReg (i : Instr) (r : Reg) : Prop :=
  match i with
  | .ldImm x _ | .addImm x _ | .ldReg x _ | .orReg x _ | .andReg x _ | .xorReg x _ | .rnd x _ => r = x
  | .addReg x _ | .sub x _ | .shr x _ | .subn x _ | .shl x _ => r = x ∨ r = regF
  | .ldVxDt x | .ldVxK x => r = x
  | .drw _ _ _ => r = regF
  | .ldVxMem x => r ≤ x
  | .cls | .ret | .jp _ | .call _ | .jpV0 _ => False
  | .seImm _ _ | .sneImm _ _ | .seReg _ _ | .sneReg _ _ | .skp _ | .sknp _ => False
  | .ldI _ | .addI _ | .ldF _ | .ldDtVx _ | .ldStVx _ | .ldB _ | .ldMemVx _ => False

/-- The fault an instruction raises in a state, if it raises one: at most one kind each (60_exceptions.md R180, R186). -/
def Instr.raises (i : Instr) (k : FaultKind) (s : State) : Prop :=
  match i, k with
  | .call _, .stackOverflow => s.sp.val = 15
  | .ret, .stackUnderflow => s.sp.val = 0
  | .drw _ _ n, .memoryOutOfRange => 1 ≤ n.val ∧ 0x1000 ≤ s.i.toNat + n.val - 1
  | .ldB _, .memoryOutOfRange => 0x1000 ≤ s.i.toNat + 2
  | .ldMemVx x, .memoryOutOfRange => 0x1000 ≤ s.i.toNat + x.val
  | .ldVxMem x, .memoryOutOfRange => 0x1000 ≤ s.i.toNat + x.val
  | .skp x, .keyOutOfRange => 0x0F < (s.reg x).toNat
  | .sknp x, .keyOutOfRange => 0x0F < (s.reg x).toNat
  | _, _ => False

/-- The instructions that sample a draw (00_scope.md R13). -/
def Instr.samples : Instr → Bool
  | .skp _ | .sknp _ | .ldVxK _ | .rnd _ _ => true
  | .cls | .ret | .jp _ | .call _ | .jpV0 _ | .seImm _ _ | .sneImm _ _ | .seReg _ _ | .sneReg _ _ => false
  | .ldImm _ _ | .addImm _ _ | .ldReg _ _ | .orReg _ _ | .andReg _ _ | .xorReg _ _ => false
  | .addReg _ _ | .sub _ _ | .shr _ _ | .subn _ _ | .shl _ _ => false
  | .ldI _ | .addI _ | .ldF _ | .drw _ _ _ | .ldB _ | .ldMemVx _ | .ldVxMem _ => false
  | .ldVxDt _ | .ldDtVx _ | .ldStVx _ => false

/-- Sprite bit: does the sprite with the given rows, placed at (x0, y0), have a 1 at column x, row y? Bit 7 of a row
byte is its leftmost column (41_display.md R102). -/
def spriteAt (bytes : List Byte) (x0 y0 x y : Nat) : Bool :=
  decide (y0 ≤ y ∧ x0 ≤ x ∧ x < x0 + 8) &&
    match bytes[y - y0]? with
    | some b => b.getLsbD (7 - (x - x0))
    | none => false

/-- Invariant: memory is in its canonical form. -/
def MemoryCanonical (s : State) : Prop := Memory.wf s.cfg.fontRom s.mem = true

/-- Invariant: the PC, and every return address on the stack, is a value the instructions can give (40_cycle.md R97). -/
def PcBounded (s : State) : Prop := s.pc.toNat ≤ 0x10FE ∧ ∀ k : Fin 16, s.stack[k].toNat ≤ 0x1000

/-- Invariant: `stack[0]` still holds its reset value, since nothing writes it (10_state.md R27). -/
def SlotZeroUnused (s : State) : Prop := s.stack[0] = 0

/-- Invariant: FAULT, once set, tells of the frozen state: its address is the PC, and either the fetch there faults and
the word is 0, or the word is an instruction that raises this very fault in this state (60_exceptions.md R180, R184). -/
def FaultExplained (s : State) : Prop :=
  ∀ f, s.fault = some f → f.fpc = s.pc ∧
    ((f.kind = .pcOutOfRange ∧ f.fword = 0 ∧ ¬ s.Fetchable) ∨
      (∃ i : Instr, f.fword = encode i ∧ Instr.raises i f.kind s))

end Sys2Proof.Machine
end

