-- ==== Sys2Proof/Certificates/Slice0/Obligations.lean ====
section
/-! DEFINITION. What is claimed of the machine, for the provers. Each statement's docstring names the rule it
formalises. `exec i s` runs `i` in the state `s` in which it stands at the PC. -/

open Sys2Proof Sys2Proof.Machine

/-! ## Encoding (30_encoding.md) -/

/-- R71: the six fields stand where the figure puts them, for every word, and re-assemble to the word. -/
def Obligations.FieldsReassembleTheWord : Prop :=
  ∀ w : Word,
    (fields w).op.toNat = w.toNat / 4096 ∧ (fields w).x.val = w.toNat / 256 % 16 ∧
    (fields w).y.val = w.toNat / 16 % 16 ∧ (fields w).n.val = w.toNat % 16 ∧
    (fields w).nn.toNat = w.toNat % 256 ∧ (fields w).nnn.toNat = w.toNat % 4096 ∧
    w.toNat = (fields w).op.toNat * 4096 + (fields w).x.val * 256 + (fields w).y.val * 16 + (fields w).n.val ∧
    (fields w).nn.toNat = (fields w).y.val * 16 + (fields w).n.val ∧
    (fields w).nnn.toNat = (fields w).x.val * 256 + (fields w).nn.toNat

/-- Words written out from the patterns of R74 decode to the instructions they stand for, and words of R76 to none. -/
def Obligations.WordsOfThePatternsDecode : Prop :=
  decodeWord 0x00E0 = some .cls ∧ decodeWord 0x00EE = some .ret ∧
  decodeWord 0x1ABC = some (.jp 0xABC) ∧ decodeWord 0x2400 = some (.call 0x400) ∧
  decodeWord 0x3312 = some (.seImm 3 0x12) ∧ decodeWord 0x9120 = some (.sneReg 1 2) ∧
  decodeWord 0x8F1E = some (.shl 0xF 1) ∧ decodeWord 0xD12F = some (.drw 1 2 0xF) ∧
  decodeWord 0xE5A1 = some (.sknp 5) ∧ decodeWord 0xFA33 = some (.ldB 0xA) ∧
  decodeWord 0xF265 = some (.ldVxMem 2) ∧ decodeWord 0xF30A = some (.ldVxK 3) ∧
  decodeWord 0x01E0 = none ∧ decodeWord 0x5121 = none ∧ decodeWord 0x8018 = none ∧ decodeWord 0xF0FF = none

/-- Decode undoes encode, for every instruction with every operand value, and leaves the bytes after it. -/
def Obligations.DecodeUndoesEncode : Prop :=
  ∀ (i : Instr) (rest : List Byte),
    decodeWord (encode i) = some i ∧ decode (bytesOfWord (encode i) ++ rest) = .ok (i, rest)

/-- Encode undoes decode: an implemented word has one meaning, and no bit of it is lost. -/
def Obligations.EncodeUndoesDecode : Prop :=
  ∀ (w : Word) (i : Instr), decodeWord w = some i → encode i = w

/-- R73: every word matches exactly one row of the opcode map, which is its instruction, or matches none, and then a
Step of a running machine that fetches it is a no-op. -/
def Obligations.EveryWordMatchesOneRowOrNone : Prop :=
  ∀ w : Word,
    (∃ (k : Nat) (r : Row), opcodeTable[k]? = some r ∧ r.selects w = true ∧
      decodeWord w = some (r.instr (fields w)) ∧
      ∀ (k' : Nat) (r' : Row), opcodeTable[k']? = some r' → r'.selects w = true → k' = k) ∨
    ((∀ r ∈ opcodeTable, r.selects w = false) ∧ decodeWord w = none ∧
      ∀ s : State, s.Running → s.Fetchable → s.fetchWord = w →
        s.engineStep = .next { s with pc := s.pc + 2, event := .unimpl w })

/-- R76: the words that match no row, space by space; R75: exact patterns, so 00E0 and 00EE are whole words and 5XY0
and 9XY0 need N = 0. -/
def Obligations.UnimplementedWordsAreExactlyThese : Prop :=
  ∀ w : Word, decodeWord w = none ↔
    (w.toNat / 4096 = 0x0 ∧ w ≠ 0x00E0 ∧ w ≠ 0x00EE) ∨
    (w.toNat / 4096 = 0x5 ∧ w.toNat % 16 ≠ 0) ∨
    (w.toNat / 4096 = 0x8 ∧ w.toNat % 16 ∈ [0x8, 0x9, 0xA, 0xB, 0xC, 0xD, 0xF]) ∨
    (w.toNat / 4096 = 0x9 ∧ w.toNat % 16 ≠ 0) ∨
    (w.toNat / 4096 = 0xE ∧ w.toNat % 256 ∉ [0x9E, 0xA1]) ∨
    (w.toNat / 4096 = 0xF ∧ w.toNat % 256 ∉ [0x07, 0x0A, 0x15, 0x18, 0x1E, 0x29, 0x33, 0x55, 0x65])

/-! ## The Step, the Tick and the Reset (40_cycle.md, 60_exceptions.md, 70_reset_and_hazards.md) -/

/-- R90: when the engine is next, and the word at the PC of a running machine may be fetched and decodes to `i`, the
transition is `exec i` of the state with its draws on the ports; the word is the big-endian pair at the PC (R53). -/
def Obligations.StepRunsTheDecodedInstruction : Prop :=
  ∀ (s s' : State) (i : Instr), StepBegins s s' → s.At i →
    step s = exec i s' ∧
    s.fetchWord.toNat = (s.readByte s.pc.toNat).toNat * 256 + (s.readByte (s.pc.toNat + 1)).toNat

/-- R94: an unimplemented word advances the PC by 2 and pulses `unimpl`; nothing else changes, FAULT stays None. -/
def Obligations.UnimplementedWordIsANoOp : Prop :=
  ∀ s s' : State, StepBegins s s' → s.Running → s.Fetchable → decodeWord s.fetchWord = none →
    ∃ t, step s = .next t ∧ t.pc = s.pc + 2 ∧ t.event = .unimpl s.fetchWord ∧ t.env = s'.env ∧
      OnlyChanges [] s t ∧ t.fault = none

/-- R91: a fetch above 0xFFE faults in every configuration, one at an odd PC or below 0x200 under STRICT_PC, with
`fpc` the PC and `fword` 0; any other fetch does not raise PcOutOfRange. -/
def Obligations.FetchOutsideThePcInvariantFaults : Prop :=
  ∀ s s' : State, StepBegins s s' → s.Running →
    (0xFFE < s.pc.toNat ∨ s.cfg.strictPc = true ∧ (s.pc.toNat % 2 = 1 ∨ s.pc.toNat < 0x200) →
      step s = .next { s' with
        fault := some { kind := .pcOutOfRange, fpc := s.pc, fword := 0 }, event := .faulted .pcOutOfRange }) ∧
    (s.pc.toNat ≤ 0xFFE → (s.cfg.strictPc = true → s.pc.toNat % 2 = 0 ∧ 0x200 ≤ s.pc.toNat) →
      ∀ t f, step s = .next t → t.fault = some f → f.kind ≠ .pcOutOfRange)

/-- R96, R191: a halted machine's Step and Tick change nothing of the block and show no event; only Reset clears FAULT. -/
def Obligations.HaltedMachineStandsStillUntilReset : Prop :=
  ∀ s : State, ¬ s.Running →
    (∀ s', StepBegins s s' → step s = .next s' ∧
      s' = { s with env := s'.env, event := .noEvent }) ∧
    (s.strobe = .tick → step s = .next { s with env := s.env.afterStrobe, event := .noEvent }) ∧
    (∀ t, step s = .next t → t.fault = s.fault ∨ ∃ rom, s.strobe = .reset rom)

/-- R191: a Tick of a running machine counts each nonzero timer down by one, never below zero, and touches nothing
else; a halted machine's changes nothing. R192: with ST at 1 the tone ends on it. -/
def Obligations.TickCountsBothTimersDown : Prop :=
  ∀ s : State, s.strobe = .tick →
    (s.Running → ∃ t, step s = .next t ∧ t.dt.toNat = s.dt.toNat - 1 ∧ t.st.toNat = s.st.toNat - 1 ∧ t.pc = s.pc ∧
      OnlyChanges [.delay, .sound] s t ∧ (s.st = 1 → s.soundOn = true ∧ t.soundOn = false)) ∧
    (¬ s.Running → ∃ t, step s = .next t ∧ t.pc = s.pc ∧ OnlyChanges [] s t)

/-- R200, R201, R203: Reset(rom) from any state, halted or not, builds the whole block anew for a ROM of at most 3584
bytes, and a longer one leaves no state: the model's Host fault (log 7). That Reset keeps the parameters STRICT_PC and
FONT_ROM of R6 is the model's choice (log 8). -/
def Obligations.ResetBuildsTheWholeBlock : Prop :=
  ∀ (s : State) (rom : List Byte), s.strobe = .reset rom →
    (rom.length ≤ 3584 → ∃ t, step s = .next t ∧
      (∀ a, a < 0x1000 → t.readByte a =
        if h : 0x200 ≤ a ∧ a < 0x200 + rom.length then rom[a - 0x200]
        else if h : 0x050 ≤ a ∧ a < 0x0A0 then s.cfg.fontRom[a - 0x050] else 0x00) ∧
      (∀ r, t.reg r = 0) ∧ t.i = 0 ∧ t.pc = 0x200 ∧ (∀ k : Fin 16, t.stack[k] = 0) ∧ t.sp = 0 ∧
      t.dt = 0 ∧ t.st = 0 ∧ (∀ (y : Fin 32) (x : Fin 64), t.disp[y][x] = false) ∧ t.fault = none ∧ t.cfg = s.cfg) ∧
    (3584 < rom.length → step s = .fault .romTooLarge)

/-- R202, R39 for the empty ROM: every piece of the block's state right after reset, FONT_ROM and STRICT_PC at the
defaults of R6 and R36. -/
def Obligations.StateAfterReset : Prop :=
  (∀ a, a < 0x1000 → State.reset.readByte a =
    if h : 0x050 ≤ a ∧ a < 0x0A0 then defaultFontRom[a - 0x050] else 0x00) ∧
  (∀ r, State.reset.reg r = 0) ∧ State.reset.i = 0 ∧ State.reset.pc = 0x200 ∧
  (∀ k : Fin 16, State.reset.stack[k] = 0) ∧ State.reset.sp = 0 ∧ State.reset.dt = 0 ∧ State.reset.st = 0 ∧
  (∀ (y : Fin 32) (x : Fin 64), State.reset.disp[y][x] = false) ∧ State.reset.fault = none ∧
  State.reset.cfg.strictPc = true

/-- The output ports: `display` is row-major (R31, R38), `sound_on` is ST != 0 (R192), `fault` shows the codes of R180. -/
def Obligations.OutputPortsShowTheState : Prop :=
  ∀ s : State,
    (∀ (y : Fin 32) (x : Fin 64), s.displayPort[y.val * 64 + x.val]? = some s.disp[y][x]) ∧
    (s.soundOn = true ↔ s.st.toNat ≠ 0) ∧
    (s.fault = none ↔ s.faultCode = 0) ∧
    (∀ f, s.fault = some f → s.faultCode = match f.kind with
      | .stackOverflow => 1 | .stackUnderflow => 2 | .memoryOutOfRange => 3
      | .pcOutOfRange => 4 | .keyOutOfRange => 5)

/-! ## Display (41_display.md) -/

/-- R100: 00E0 turns every pixel off, whatever the display was, and changes nothing else. -/
def Obligations.ClearTurnsEveryPixelOff : Prop :=
  ∀ s : State, (encode .cls).toNat = 0x00E0 ∧
    ∃ t, exec .cls s = .next t ∧ (∀ (y : Fin 32) (x : Fin 64), t.disp[y][x] = false) ∧ t.pc = s.pc + 2 ∧
      OnlyChanges [.display] s t ∧ SameOutside s t

/-- R101, R102, R103: DXYN toggles exactly the pixels under a 1 of the sprite placed at (V[X] mod 64, V[Y] mod 32),
drops what lies past the right and bottom edges, and sets VF to 1 exactly when a pixel that was on goes off; a row
address past the end of memory is MemoryOutOfRange, whatever the clipping, and then nothing is drawn. -/
def Obligations.SpriteTogglesItsPixelsAndReportsCollision : Prop :=
  ∀ (s : State) (x y : Reg) (n : Fin 16),
    (encode (.drw x y n)).toNat = 0xD000 + x.val * 256 + y.val * 16 + n.val ∧
    (n.val = 0 ∨ s.i.toNat + n.val - 1 < 0x1000 →
      ∃ t, exec (.drw x y n) s = .next t ∧
        (∀ sprite : Nat → Nat → Bool,
          sprite = spriteAt ((List.range n.val).map fun k => s.readByte (s.i.toNat + k))
            ((s.reg x).toNat % 64) ((s.reg y).toNat % 32) →
          (∀ (py : Fin 32) (px : Fin 64), t.disp[py][px] = (s.disp[py][px] ^^ sprite px py)) ∧
          ((∃ (py : Fin 32) (px : Fin 64), s.disp[py][px] = true ∧ sprite px py = true) → t.reg 15 = 1) ∧
          ((∀ (py : Fin 32) (px : Fin 64), s.disp[py][px] = true → sprite px py = false) → t.reg 15 = 0)) ∧
        (∀ r : Reg, r ≠ 15 → t.reg r = s.reg r) ∧ t.pc = s.pc + 2 ∧
        OnlyChanges [.regs, .display] s t ∧ SameOutside s t) ∧
    (1 ≤ n.val → 0x1000 ≤ s.i.toNat + n.val - 1 →
      exec (.drw x y n) s = .next { s with
        fault := some { kind := .memoryOutOfRange, fpc := s.pc, fword := encode (.drw x y n) },
        event := .faulted .memoryOutOfRange })

/-! ## Control transfer (42_flow.md) -/

/-- R111, R113: 1NNN puts NNN in the PC, BNNN the exact sum of V0 and NNN; nothing else changes. -/
def Obligations.JumpsReplaceThePc : Prop :=
  ∀ (s : State) (nnn : Addr),
    ((encode (.jp nnn)).toNat = 0x1000 + nnn.toNat ∧
      ∃ t, exec (.jp nnn) s = .next t ∧ t.pc.toNat = nnn.toNat ∧ OnlyChanges [] s t ∧ SameOutside s t) ∧
    ((encode (.jpV0 nnn)).toNat = 0xB000 + nnn.toNat ∧
      ∃ t, exec (.jpV0 nnn) s = .next t ∧ t.pc.toNat = (s.reg 0).toNat + nnn.toNat ∧
        OnlyChanges [] s t ∧ SameOutside s t)

/-- R112, R181: 2NNN pushes the address after it into slot SP+1 and jumps; with SP = 15 it is StackOverflow and no
slot is written. -/
def Obligations.CallPushesTheReturnAddress : Prop :=
  ∀ (s : State) (nnn : Addr), (encode (.call nnn)).toNat = 0x2000 + nnn.toNat ∧
    (s.sp.val < 15 → ∃ t, exec (.call nnn) s = .next t ∧ t.sp.val = s.sp.val + 1 ∧
      (∀ k : Fin 16, t.stack[k] = if k.val = s.sp.val + 1 then s.pc + 2 else s.stack[k]) ∧
      t.pc.toNat = nnn.toNat ∧ OnlyChanges [.stack] s t ∧ SameOutside s t) ∧
    (s.sp.val = 15 → exec (.call nnn) s = .next { s with
      fault := some { kind := .stackOverflow, fpc := s.pc, fword := encode (.call nnn) },
      event := .faulted .stackOverflow })

/-- R110, R182: 00EE takes the PC from slot SP, which it does not clear, and lowers SP; with SP = 0 it is
StackUnderflow. -/
def Obligations.ReturnPopsTheReturnAddress : Prop :=
  ∀ s : State, (encode .ret).toNat = 0x00EE ∧
    (0 < s.sp.val → ∃ t, exec .ret s = .next t ∧ t.sp.val = s.sp.val - 1 ∧ t.pc = s.stack[s.sp] ∧
      t.stack = s.stack ∧ OnlyChanges [.stack] s t ∧ SameOutside s t) ∧
    (s.sp.val = 0 → exec .ret s = .next { s with
      fault := some { kind := .stackUnderflow, fpc := s.pc, fword := encode .ret },
      event := .faulted .stackUnderflow })

/-- A return right after a call comes back to the instruction after the call, with SP as before it (95_test_vectors.md W4). -/
def Obligations.ReturnUndoesCall : Prop :=
  ∀ (s : State) (nnn : Addr), s.sp.val < 15 →
    ∃ t u, exec (.call nnn) s = .next t ∧ exec .ret t = .next u ∧ u.pc = s.pc + 2 ∧ u.sp = s.sp ∧
      (∀ k : Fin 16, k.val ≤ s.sp.val → u.stack[k] = s.stack[k]) ∧ OnlyChanges [.stack] s u ∧ SameOutside s u

/-! ## Skips (43_skip.md) -/

/-- R120 to R124: the four comparing skips go to PC + 4 when their condition holds and to PC + 2 when not, and change
nothing else. -/
def Obligations.ComparingSkips : Prop :=
  ∀ (s : State) (x y : Reg) (nn : Byte),
    ∀ p ∈ [(Instr.seImm x nn, 0x3000 + x.val * 256 + nn.toNat, decide ((s.reg x).toNat = nn.toNat)),
           (Instr.sneImm x nn, 0x4000 + x.val * 256 + nn.toNat, decide ((s.reg x).toNat ≠ nn.toNat)),
           (Instr.seReg x y, 0x5000 + x.val * 256 + y.val * 16, decide ((s.reg x).toNat = (s.reg y).toNat)),
           (Instr.sneReg x y, 0x9000 + x.val * 256 + y.val * 16, decide ((s.reg x).toNat ≠ (s.reg y).toNat))],
      (encode p.1).toNat = p.2.1 ∧
      ∃ t, exec p.1 s = .next t ∧ t.pc = (if p.2.2 = true then s.pc + 4 else s.pc + 2) ∧
        OnlyChanges [] s t ∧ SameOutside s t

/-- R120, R125, R126, R127: EX9E and EXA1 skip on key V[X] down and up; above 0x0F both are KeyOutOfRange. -/
def Obligations.KeySkips : Prop :=
  ∀ (s : State) (x : Reg),
    (encode (.skp x)).toNat = 0xE09E + x.val * 256 ∧ (encode (.sknp x)).toNat = 0xE0A1 + x.val * 256 ∧
    (∀ k : Fin 16, (s.reg x).toNat = k.val →
      (∃ t, exec (.skp x) s = .next t ∧
        t.pc = (if s.env.ports.keyDown[k] = true then s.pc + 4 else s.pc + 2) ∧ OnlyChanges [] s t ∧ SameOutside s t) ∧
      (∃ t, exec (.sknp x) s = .next t ∧
        t.pc = (if s.env.ports.keyDown[k] = false then s.pc + 4 else s.pc + 2) ∧ OnlyChanges [] s t ∧ SameOutside s t)) ∧
    (0x0F < (s.reg x).toNat → ∀ i ∈ [Instr.skp x, Instr.sknp x],
      exec i s = .next { s with
        fault := some { kind := .keyOutOfRange, fpc := s.pc, fword := encode i }, event := .faulted .keyOutOfRange })

/-! ## Registers and arithmetic (44_alu.md) -/

/-- R132, R133, R134: loads, moves and the flagless add write V[X] alone, VF only when X = F. -/
def Obligations.LoadsAndImmediateAddWriteOnlyVx : Prop :=
  ∀ (s : State) (x y : Reg) (nn : Byte),
    ∀ p ∈ [(Instr.ldImm x nn, 0x6000 + x.val * 256 + nn.toNat, nn.toNat),
           (Instr.addImm x nn, 0x7000 + x.val * 256 + nn.toNat, ((s.reg x).toNat + nn.toNat) % 256),
           (Instr.ldReg x y, 0x8000 + x.val * 256 + y.val * 16, (s.reg y).toNat)],
      (encode p.1).toNat = p.2.1 ∧
      ∃ t, exec p.1 s = .next t ∧ (∀ r, (t.reg r).toNat = if r = x then p.2.2 else (s.reg r).toNat) ∧
        t.pc = s.pc + 2 ∧ OnlyChanges [.regs] s t ∧ SameOutside s t

/-- R135, R136, R137: OR, AND and XOR write V[X] bit by bit, and leave VF unless X = F. -/
def Obligations.LogicWritesOnlyVx : Prop :=
  ∀ (s : State) (x y : Reg),
    ∀ p ∈ [(Instr.orReg x y, 0x8001 + x.val * 256 + y.val * 16, (s.reg x).toNat ||| (s.reg y).toNat),
           (Instr.andReg x y, 0x8002 + x.val * 256 + y.val * 16, (s.reg x).toNat &&& (s.reg y).toNat),
           (Instr.xorReg x y, 0x8003 + x.val * 256 + y.val * 16, (s.reg x).toNat ^^^ (s.reg y).toNat)],
      (encode p.1).toNat = p.2.1 ∧
      ∃ t, exec p.1 s = .next t ∧ (∀ r, (t.reg r).toNat = if r = x then p.2.2 else (s.reg r).toNat) ∧
        t.pc = s.pc + 2 ∧ OnlyChanges [.regs] s t ∧ SameOutside s t

/-- R131, R138 to R142: the five flag-writing instructions put the result mod 256 in V[X] and then the flag in VF, both
from the operands before the step; with X = F the flag stands; SHR and SHL do not read Y. -/
def Obligations.FlagInstructionsWriteResultThenFlag : Prop :=
  ∀ (s : State) (x y : Reg) (a b : Nat), a = (s.reg x).toNat → b = (s.reg y).toNat →
    ∀ p ∈ [(Instr.addReg x y, 0x8004 + x.val * 256 + y.val * 16, (a + b) % 256, (a + b) / 256),
           (Instr.sub x y, 0x8005 + x.val * 256 + y.val * 16, (a + 256 - b) % 256, if b ≤ a then 1 else 0),
           (Instr.shr x y, 0x8006 + x.val * 256 + y.val * 16, a / 2, a % 2),
           (Instr.subn x y, 0x8007 + x.val * 256 + y.val * 16, (b + 256 - a) % 256, if a ≤ b then 1 else 0),
           (Instr.shl x y, 0x800E + x.val * 256 + y.val * 16, a * 2 % 256, a / 128)],
      (encode p.1).toNat = p.2.1 ∧
      ∃ t, exec p.1 s = .next t ∧
        (∀ r : Reg, (t.reg r).toNat = if r = 15 then p.2.2.2 else if r = x then p.2.2.1 else (s.reg r).toNat) ∧
        t.pc = s.pc + 2 ∧ OnlyChanges [.regs] s t ∧ SameOutside s t

/-- R143: CXNN puts the random byte AND NN in V[X], for every random byte; a bit that NN lacks is 0. -/
def Obligations.RandomByteIsMasked : Prop :=
  ∀ (s : State) (x : Reg) (nn : Byte), (encode (.rnd x nn)).toNat = 0xC000 + x.val * 256 + nn.toNat ∧
    ∃ t, exec (.rnd x nn) s = .next t ∧
      (∀ r, t.reg r = if r = x then s.env.ports.rand &&& nn else s.reg r) ∧
      (∀ k, nn.getLsbD k = false → (t.reg x).getLsbD k = false) ∧
      t.pc = s.pc + 2 ∧ OnlyChanges [.regs] s t ∧ SameOutside s t

/-! ## Index register and memory (45_index_memory.md) -/

/-- R150, R151, R152: ANNN, FX1E and FX29 write I alone, FX1E modulo 65536 and FX29 without a mask; no flag. -/
def Obligations.IndexWrites : Prop :=
  ∀ (s : State) (x : Reg) (nnn : Addr),
    ∀ p ∈ [(Instr.ldI nnn, 0xA000 + nnn.toNat, nnn.toNat),
           (Instr.addI x, 0xF01E + x.val * 256, (s.i.toNat + (s.reg x).toNat) % 65536),
           (Instr.ldF x, 0xF029 + x.val * 256, 0x050 + 5 * (s.reg x).toNat)],
      (encode p.1).toNat = p.2.1 ∧
      ∃ t, exec p.1 s = .next t ∧ t.i.toNat = p.2.2 ∧ t.pc = s.pc + 2 ∧ OnlyChanges [.index] s t ∧ SameOutside s t

/-- R153: FX33 stores the hundreds, tens and ones of V[X] at I, I+1, I+2 and leaves every other byte, and I; past the
end of memory it is MemoryOutOfRange and no byte is written. -/
def Obligations.DecimalDigitsAreStored : Prop :=
  ∀ (s : State) (x : Reg), (encode (.ldB x)).toNat = 0xF033 + x.val * 256 ∧
    (s.dataAddr + 2 < 0x1000 → ∃ t, exec (.ldB x) s = .next t ∧
      (t.readByte s.dataAddr).toNat = (s.reg x).toNat / 100 ∧
      (t.readByte (s.dataAddr + 1)).toNat = (s.reg x).toNat / 10 % 10 ∧
      (t.readByte (s.dataAddr + 2)).toNat = (s.reg x).toNat % 10 ∧
      (∀ a, a < s.dataAddr ∨ s.dataAddr + 2 < a → t.readByte a = s.readByte a) ∧
      t.pc = s.pc + 2 ∧ OnlyChanges [.memory] s t ∧ SameOutside s t) ∧
    (0x1000 ≤ s.dataAddr + 2 → exec (.ldB x) s = .next { s with
      fault := some { kind := .memoryOutOfRange, fpc := s.pc, fword := encode (.ldB x) },
      event := .faulted .memoryOutOfRange }) ∧
    s.dataAddr = s.i.toNat

/-- R154: FX55 stores V0..VX at I..I+X and leaves every other byte, and I; past the end of memory it is
MemoryOutOfRange and no byte is written. -/
def Obligations.RegistersAreStored : Prop :=
  ∀ (s : State) (x : Reg), (encode (.ldMemVx x)).toNat = 0xF055 + x.val * 256 ∧
    (s.dataAddr + x.val < 0x1000 → ∃ t, exec (.ldMemVx x) s = .next t ∧
      (∀ k : Reg, k ≤ x → t.readByte (s.dataAddr + k.val) = s.reg k) ∧
      (∀ a, a < s.dataAddr ∨ s.dataAddr + x.val < a → t.readByte a = s.readByte a) ∧
      t.pc = s.pc + 2 ∧ OnlyChanges [.memory] s t ∧ SameOutside s t) ∧
    (0x1000 ≤ s.dataAddr + x.val → exec (.ldMemVx x) s = .next { s with
      fault := some { kind := .memoryOutOfRange, fpc := s.pc, fword := encode (.ldMemVx x) },
      event := .faulted .memoryOutOfRange }) ∧
    s.dataAddr = s.i.toNat

/-- R155: FX65 loads V0..VX from I..I+X and leaves the registers above X, and I; past the end of memory it is
MemoryOutOfRange and no register changes. -/
def Obligations.RegistersAreLoaded : Prop :=
  ∀ (s : State) (x : Reg), (encode (.ldVxMem x)).toNat = 0xF065 + x.val * 256 ∧
    (s.i.toNat + x.val < 0x1000 → ∃ t, exec (.ldVxMem x) s = .next t ∧
      (∀ k : Reg, t.reg k = if k ≤ x then s.readByte (s.i.toNat + k.val) else s.reg k) ∧
      t.pc = s.pc + 2 ∧ OnlyChanges [.regs] s t ∧ SameOutside s t) ∧
    (0x1000 ≤ s.i.toNat + x.val → exec (.ldVxMem x) s = .next { s with
      fault := some { kind := .memoryOutOfRange, fpc := s.pc, fword := encode (.ldVxMem x) },
      event := .faulted .memoryOutOfRange })

/-- What FX55 stores, FX65 loads back, whatever the registers have become in between. -/
def Obligations.LoadRestoresWhatStoreSaved : Prop :=
  ∀ (s : State) (x : Reg) (w : Vector Byte 16), s.dataAddr + x.val < 0x1000 →
    ∃ t u, exec (.ldMemVx x) s = .next t ∧ exec (.ldVxMem x) { t with v := w } = .next u ∧
      ∀ k : Reg, u.reg k = if k ≤ x then s.reg k else w[k]

/-- R62: two bytes that FX55 stores at the address after it are the word the next Step fetches. -/
def Obligations.StoredWordIsFetchedNext : Prop :=
  ∀ (s : State) (x : Reg), 1 ≤ x.val → s.dataAddr + x.val < 0x1000 → s.dataAddr = s.pc.toNat + 2 →
    ∃ t, exec (.ldMemVx x) s = .next t ∧ t.fetchWord.toNat = (s.reg 0).toNat * 256 + (s.reg 1).toNat

/-! ## Timers and the key wait (46_timer_key.md) -/

/-- R160, R162, R163: FX07 reads DT, FX15 writes it, FX18 writes ST, which drives `sound_on` at once. -/
def Obligations.TimerInstructions : Prop :=
  ∀ (s : State) (x : Reg),
    ((encode (.ldVxDt x)).toNat = 0xF007 + x.val * 256 ∧
      ∃ t, exec (.ldVxDt x) s = .next t ∧ (∀ r, t.reg r = if r = x then s.dt else s.reg r) ∧
        t.pc = s.pc + 2 ∧ OnlyChanges [.regs] s t ∧ SameOutside s t) ∧
    ((encode (.ldDtVx x)).toNat = 0xF015 + x.val * 256 ∧
      ∃ t, exec (.ldDtVx x) s = .next t ∧ t.dt = s.reg x ∧
        t.pc = s.pc + 2 ∧ OnlyChanges [.delay] s t ∧ SameOutside s t) ∧
    ((encode (.ldStVx x)).toNat = 0xF018 + x.val * 256 ∧
      ∃ t, exec (.ldStVx x) s = .next t ∧ t.st = s.reg x ∧ (t.soundOn = true ↔ s.reg x ≠ 0) ∧
        t.pc = s.pc + 2 ∧ OnlyChanges [.sound] s t ∧ SameOutside s t)

/-- R161: FX0A writes the reported key to V[X] and goes on; with no key reported the PC is rewound to the word itself
and nothing changes at all. -/
def Obligations.KeyWait : Prop :=
  ∀ (s : State) (x : Reg), (encode (.ldVxK x)).toNat = 0xF00A + x.val * 256 ∧
    (∀ k : Fin 16, s.env.ports.lastKey = some k → ∃ t, exec (.ldVxK x) s = .next t ∧
      (∀ r, (t.reg r).toNat = if r = x then k.val else (s.reg r).toNat) ∧
      t.pc = s.pc + 2 ∧ OnlyChanges [.regs] s t ∧ SameOutside s t) ∧
    (s.env.ports.lastKey = none → exec (.ldVxK x) s = .next s)

/-- R98: a parked machine's Step changes no field of the block, and a Tick only its timers, not the PC either: it stays
parked. (That a state whose fetch faults is not called parked is the model's choice, log 16.) -/
def Obligations.ParkedMachineStaysParked : Prop :=
  ∀ s : State, s.Parked →
    (∀ s', StepBegins s s' → step s = .next s' ∧ s'.Parked) ∧
    (s.strobe = .tick → ∃ t, step s = .next t ∧ t.Parked ∧ t.pc = s.pc ∧ OnlyChanges [.delay, .sound] s t)

/-- R98, R209: a blocked machine stays blocked, in the same state of the block, while no key is reported. (A state whose
fetch faults is not called blocked: the model's choice, log 16.) -/
def Obligations.BlockedMachineWaitsForAKey : Prop :=
  ∀ s s' : State, s.Blocked → StepBegins s s' → s'.env.ports.lastKey = none → step s = .next s' ∧ s'.Blocked

/-! ## Whole-machine rules -/

/-- R40, R22, R26 to R31: no instruction writes a part of the state, or a general register, that the access matrix
does not give it; none writes the world outside. -/
def Obligations.InstructionsWriteOnlyTheirParts : Prop :=
  ∀ (i : Instr) (s t : State), exec i s = .next t →
    OnlyChanges (.fault :: Instr.writes i) s t ∧ t.env = s.env ∧ ∀ r, t.reg r ≠ s.reg r → Instr.writesReg i r

/-- R180, R186: an instruction of a running machine raises a fault exactly when its row of the fault table says so. -/
def Obligations.InstructionFaultsExactlyWhenItsRowSays : Prop :=
  ∀ (i : Instr) (s : State) (k : FaultKind), s.Running →
    ((∃ t f, exec i s = .next t ∧ t.fault = some f ∧ f.kind = k) ↔ Instr.raises i k s)

/-- R12, R95: a Step that ends in a fault has changed nothing but FAULT; FAULT tells the address, the word and the kind. -/
def Obligations.FaultsArePrecise : Prop :=
  ∀ (s s' t : State) (f : FaultRecord), StepBegins s s' → s.Running → step s = .next t → t.fault = some f →
    t = { s' with fault := some f, event := .faulted f.kind } ∧ f.fpc = s.pc ∧
    ((f.kind = .pcOutOfRange ∧ f.fword = 0 ∧ ¬ s.Fetchable) ∨
      ∃ i, s.At i ∧ f.fword = s.fetchWord ∧ Instr.raises i f.kind s)

/-- Every transition has a next state, but for a Reset whose ROM is too long: no instruction is refused, and a Step or
Tick never ends a run (R189). -/
def Obligations.OnlyAnOversizedRomEndsARun : Prop :=
  ∀ s : State, (∃ t, step s = .next t) ∨
    (step s = .fault .romTooLarge ∧ ∃ rom, s.strobe = .reset rom ∧ 3584 < rom.length)

/-- R13, R99: an instruction that names no draw does not depend on the draws. -/
def Obligations.UnsampledDrawsDoNotMatter : Prop :=
  ∀ (i : Instr) (s t : State) (d : Draws), Instr.samples i = false → exec i s = .next t →
    exec i { s with env := { s.env with ports := d } } = .next { t with env := { t.env with ports := d } }

/-- A word placed by `withFetchWord` is what the very next transition runs, from any state (the model's own
interface, log 14). -/
def Obligations.PlacedWordRunsNext : Prop :=
  ∀ (s : State) (w : Nat) (i : Instr), decodeTableWord 16 w = some i →
    ∃ s', StepBegins (s.withFetchWord 16 w) s' ∧ step (s.withFetchWord 16 w) = exec i s'

/-! ## Invariants -/

/-- Every transition keeps memory in its canonical form, so equal memories are equal data. -/
def Obligations.TransitionsKeepMemoryCanonical : Prop :=
  ∀ s t : State, MemoryCanonical s → step s = .next t → MemoryCanonical t

/-- R97: the PC never passes 0x10FE, and no return address passes 0x1000. -/
def Obligations.TransitionsKeepThePcBounded : Prop :=
  ∀ s t : State, PcBounded s → step s = .next t → PcBounded t

/-- R27: stack[0] is never written. -/
def Obligations.TransitionsLeaveSlotZeroUnused : Prop :=
  ∀ s t : State, SlotZeroUnused s → step s = .next t → SlotZeroUnused t

/-- R184: what FAULT tells stays true of the frozen state, through every Step and Tick, until Reset. -/
def Obligations.TransitionsKeepTheFaultExplained : Prop :=
  ∀ s t : State, FaultExplained s → step s = .next t → FaultExplained t

/-- The state after reset meets every invariant. -/
def Obligations.ResetMeetsTheInvariants : Prop :=
  MemoryCanonical State.reset ∧ PcBounded State.reset ∧ SlotZeroUnused State.reset ∧ FaultExplained State.reset

/-! ## Runs (10_state.md R25) -/

/-- R25: every order of Steps and Ticks is a run. A script of any length and order runs to its end; past it the run goes
on for ever, each transition that of the next free strobe, and only a free Reset whose ROM is too long could end it
(scripts and free strobes are the model's own, log 1, log 2). -/
def Obligations.EveryOrderOfStepsAndTicksIsARun : Prop :=
  (∀ (l : List Input) (s : State), (∀ rom, Input.reset rom ∉ l) → s.env.script = l →
    ∃ t, s.after l.length = .next t ∧ t.env.script = [] ∧ t.env.drawn = s.env.drawn) ∧
  (∀ (n : Nat) (s : State), s.env.script = [] →
    (∃ t, s.after n = .next t ∧ t.env.script = [] ∧ t.env.drawn = s.env.drawn + n ∧
      t.strobe = Config.freeStrobe (s.env.drawn + n)) ∨
    (s.after n = .fault .romTooLarge ∧
      ∃ k rom, k < n ∧ Config.freeStrobe (s.env.drawn + k) = .reset rom ∧ 3584 < rom.length))
end

