-- ==== Sys2Proof/Laws/Decode.lean ====
section
/-! SUPPORT. The masks of the opcode map as arithmetic on the word, the fields likewise, and the map's rows. -/

namespace Sys2Proof

/-! ### The four masks (30_encoding.md R74) -/

theorem land_F000 (w : Word) : (w &&& 0xF000#16).toNat = w.toNat / 4096 * 4096 := by
  have h : w &&& 0xF000#16 = (w >>> 12) <<< 12 := by
    apply BitVec.eq_of_getLsbD_eq
    intro i hi
    interval_cases i <;> simp
  rw [h, BitVec.toNat_shiftLeft, BitVec.toNat_ushiftRight, Nat.shiftLeft_eq, Nat.shiftRight_eq_div_pow]
  omega

theorem land_F00F (w : Word) : (w &&& 0xF00F#16).toNat = w.toNat / 4096 * 4096 + w.toNat % 16 := by
  have h : w &&& 0xF00F#16 = (w &&& 0xF000#16) + (w &&& 0x000F#16) := by
    rw [BitVec.add_eq_or_of_and_eq_zero]
    · rw [← BitVec.and_or_distrib_left]; rfl
    · rw [show (w &&& 0xF000#16) &&& (w &&& 0x000F#16) = w &&& (0xF000#16 &&& 0x000F#16) by ac_rfl]; simp
  have h15 : (w &&& 0x000F#16).toNat = w.toNat % 16 := by
    rw [BitVec.toNat_and]; exact Nat.and_two_pow_sub_one_eq_mod w.toNat 4
  rw [h, BitVec.toNat_add, land_F000, h15]
  omega

theorem land_F0FF (w : Word) : (w &&& 0xF0FF#16).toNat = w.toNat / 4096 * 4096 + w.toNat % 256 := by
  have h : w &&& 0xF0FF#16 = (w &&& 0xF000#16) + (w &&& 0x00FF#16) := by
    rw [BitVec.add_eq_or_of_and_eq_zero]
    · rw [← BitVec.and_or_distrib_left]; rfl
    · rw [show (w &&& 0xF000#16) &&& (w &&& 0x00FF#16) = w &&& (0xF000#16 &&& 0x00FF#16) by ac_rfl]; simp
  have h255 : (w &&& 0x00FF#16).toNat = w.toNat % 256 := by
    rw [BitVec.toNat_and]; exact Nat.and_two_pow_sub_one_eq_mod w.toNat 8
  rw [h, BitVec.toNat_add, land_F000, h255]
  omega

theorem land_FFFF (w : Word) : w &&& 0xFFFF#16 = w := by
  simpa using BitVec.and_allOnes (x := w)

/-! ### When a row selects a word -/

theorem Row.selects_iff (r : Row) (w : Word) : r.selects w = true ↔ (w &&& r.mask).toNat = r.val.toNat := by
  rw [BitVec.toNat_inj]; simp [Row.selects]

/-- Two rows that both select a word agree on every bit both of them look at. -/
theorem Row.selects_agree {r q : Row} {w : Word} (hr : r.selects w = true) (hq : q.selects w = true) :
    r.val &&& q.mask = q.val &&& r.mask := by
  simp only [Row.selects, beq_iff_eq] at hr hq
  rw [← hr, ← hq]
  ac_rfl

/-! ### The fields (R71) -/

@[simp] theorem fields_op (w : Word) : (fields w).op.toNat = w.toNat / 4096 := by
  simp [fields, Nat.shiftRight_eq_div_pow]; omega

@[simp] theorem fields_x (w : Word) : (fields w).x.val = w.toNat / 256 % 16 := by
  simp [fields, Nat.shiftRight_eq_div_pow]

@[simp] theorem fields_y (w : Word) : (fields w).y.val = w.toNat / 16 % 16 := by
  simp [fields, Nat.shiftRight_eq_div_pow]

@[simp] theorem fields_n (w : Word) : (fields w).n.val = w.toNat % 16 := by
  simp [fields]

@[simp] theorem fields_nn (w : Word) : (fields w).nn.toNat = w.toNat % 256 := by
  simp [fields]

@[simp] theorem fields_nnn (w : Word) : (fields w).nnn.toNat = w.toNat % 4096 := by
  simp [fields]

/-! ### Words and bytes (20_memory.md R53) -/

theorem wordOfBytes_toNat (hi lo : Byte) : (wordOfBytes hi lo).toNat = hi.toNat * 256 + lo.toNat := by
  simp [wordOfBytes]; omega

theorem bytesOfWord_length (w : Word) : (bytesOfWord w).length = 2 := rfl

/-- The two bytes of a word make that word again. -/
theorem wordOfBytes_bytesOfWord (w : Word) : wordOfBytes (w.extractLsb' 8 8) (w.extractLsb' 0 8) = w := by
  apply BitVec.eq_of_toNat_eq
  simp [wordOfBytes_toNat, Nat.shiftRight_eq_div_pow]
  omega

/-! ### The words of the encoder -/

theorem wordXYN_toNat {op x y n : Nat} (ho : op < 16) (hx : x < 16) (hy : y < 16) (hn : n < 16) :
    (wordXYN op x y n).toNat = op * 4096 + x * 256 + y * 16 + n := by
  simp [wordXYN]; omega

theorem wordXNN_toNat {op x nn : Nat} (ho : op < 16) (hx : x < 16) (hn : nn < 256) :
    (wordXNN op x nn).toNat = op * 4096 + x * 256 + nn := by
  simp [wordXNN]; omega

theorem wordNNN_toNat {op nnn : Nat} (ho : op < 16) (hn : nnn < 4096) :
    (wordNNN op nnn).toNat = op * 4096 + nnn := by
  simp [wordNNN]; omega

/-! ### The row of an instruction's word -/

theorem Row.selects_F000 {v w : Word} {f : Fields → Instr} (h : w.toNat / 4096 * 4096 = v.toNat) :
    Row.selects ⟨0xF000, v, f⟩ w = true := by
  rw [Row.selects_iff]; exact (land_F000 w).trans h

theorem Row.selects_F00F {v w : Word} {f : Fields → Instr} (h : w.toNat / 4096 * 4096 + w.toNat % 16 = v.toNat) :
    Row.selects ⟨0xF00F, v, f⟩ w = true := by
  rw [Row.selects_iff]; exact (land_F00F w).trans h

theorem Row.selects_F0FF {v w : Word} {f : Fields → Instr} (h : w.toNat / 4096 * 4096 + w.toNat % 256 = v.toNat) :
    Row.selects ⟨0xF0FF, v, f⟩ w = true := by
  rw [Row.selects_iff]; exact (land_F0FF w).trans h

/-! ### What a selected word looks like -/

theorem Row.eq_of_selects_FFFF {v w : Word} {f : Fields → Instr} (h : Row.selects ⟨0xFFFF, v, f⟩ w = true) : w = v := by
  simp only [Row.selects, beq_iff_eq] at h
  exact (land_FFFF w).symm.trans h

theorem Row.toNat_of_selects_F000 {v w : Word} {f : Fields → Instr} (h : Row.selects ⟨0xF000, v, f⟩ w = true) :
    w.toNat / 4096 * 4096 = v.toNat := (land_F000 w).symm.trans ((Row.selects_iff _ _).1 h)

theorem Row.toNat_of_selects_F00F {v w : Word} {f : Fields → Instr} (h : Row.selects ⟨0xF00F, v, f⟩ w = true) :
    w.toNat / 4096 * 4096 + w.toNat % 16 = v.toNat := (land_F00F w).symm.trans ((Row.selects_iff _ _).1 h)

theorem Row.toNat_of_selects_F0FF {v w : Word} {f : Fields → Instr} (h : Row.selects ⟨0xF0FF, v, f⟩ w = true) :
    w.toNat / 4096 * 4096 + w.toNat % 256 = v.toNat := (land_F0FF w).symm.trans ((Row.selects_iff _ _).1 h)

/-! ### The rows of the map exclude each other (R73) -/

/-- Any two rows disagree on some bit both of them look at. -/
theorem opcodeTable_disjoint : opcodeTable.Pairwise fun r q => r.val &&& q.mask ≠ q.val &&& r.mask := by
  have h : (opcodeTable.map fun r => (r.mask, r.val)).Pairwise fun r q => r.2 &&& q.1 ≠ q.2 &&& r.1 := by decide
  exact List.pairwise_map.1 h

/-- So at most one row selects a word. -/
theorem row_unique {k k' : Nat} {r r' : Row} {w : Word} (h : opcodeTable[k]? = some r)
    (h' : opcodeTable[k']? = some r') (hs : r.selects w = true) (hs' : r'.selects w = true) : k' = k := by
  obtain ⟨hk, rfl⟩ := List.getElem?_eq_some_iff.1 h
  obtain ⟨hk', rfl⟩ := List.getElem?_eq_some_iff.1 h'
  have hp := List.pairwise_iff_getElem.1 opcodeTable_disjoint
  rcases Nat.lt_trichotomy k k' with hlt | heq | hgt
  · exact absurd (Row.selects_agree hs hs') (hp _ _ hk hk' hlt)
  · exact heq.symm
  · exact absurd (Row.selects_agree hs' hs) (hp _ _ hk' hk hgt)

/-- The decoder, told by the row that selects the word. -/
theorem decodeWord_of_selects {k : Nat} {r : Row} {w : Word} (h : opcodeTable[k]? = some r)
    (hs : r.selects w = true) : decodeWord w = some (r.instr (fields w)) := by
  unfold decodeWord
  cases hf : opcodeTable.find? (·.selects w) with
  | none => exact absurd hs (List.find?_eq_none.1 hf r (List.mem_of_getElem? h))
  | some q =>
    obtain ⟨k', hk'⟩ := List.getElem?_of_mem (List.mem_of_find?_eq_some hf)
    have hq := List.find?_some hf
    obtain rfl := row_unique h hk' hs hq
    rw [h] at hk'
    rw [Option.some.inj hk']; rfl

/-- The decoder, turned round: a decoded word was selected by a row, which read the instruction from its fields. -/
theorem row_of_decodeWord {w : Word} {i : Instr} (h : decodeWord w = some i) :
    ∃ r ∈ opcodeTable, r.selects w = true ∧ i = r.instr (fields w) := by
  unfold decodeWord at h
  cases hf : opcodeTable.find? (·.selects w) with
  | none => rw [hf] at h; cases h
  | some q =>
    rw [hf] at h
    exact ⟨q, List.mem_of_find?_eq_some hf, by simpa using List.find?_some hf, by simpa using h.symm⟩

/-! ### The fields of an assembled word -/

theorem fields_wordNNN {op : Nat} {nnn : Addr} (ho : op < 16) : (fields (wordNNN op nnn.toNat)).nnn = nnn := by
  apply BitVec.eq_of_toNat_eq
  have := nnn.isLt
  rw [fields_nnn, wordNNN_toNat ho nnn.isLt]; omega

theorem fields_wordXNN_x {op nn : Nat} {x : Reg} (ho : op < 16) (hn : nn < 256) :
    (fields (wordXNN op x nn)).x = x := by
  apply Fin.ext
  have := x.isLt
  rw [fields_x, wordXNN_toNat ho x.isLt hn]; omega

theorem fields_wordXNN_nn {op : Nat} {x : Reg} {nn : Byte} (ho : op < 16) :
    (fields (wordXNN op x nn.toNat)).nn = nn := by
  apply BitVec.eq_of_toNat_eq
  have := nn.isLt
  rw [fields_nn, wordXNN_toNat ho x.isLt nn.isLt]; omega

theorem fields_wordXYN {op n : Nat} {x y : Reg} (ho : op < 16) (hn : n < 16) :
    (fields (wordXYN op x y n)).x = x ∧ (fields (wordXYN op x y n)).y = y ∧
      (fields (wordXYN op x y n)).n.val = n := by
  have := x.isLt; have := y.isLt
  refine ⟨Fin.ext ?_, Fin.ext ?_, ?_⟩
  · rw [fields_x, wordXYN_toNat ho x.isLt y.isLt hn]; omega
  · rw [fields_y, wordXYN_toNat ho x.isLt y.isLt hn]; omega
  · rw [fields_n, wordXYN_toNat ho x.isLt y.isLt hn]; omega

end Sys2Proof
end

