-- ==== Sys2Proof/Laws/Display.lean ====
section
/-! SUPPORT. What drawing does to each pixel and to the collision: one bit, one row byte, a whole sprite. -/

namespace Sys2Proof.Machine

/-- One bit toggles its own pixel and no other. -/
theorem Drawing.plot_disp (d : Drawing) (x y : Nat) (py : Fin 32) (px : Fin 64) :
    (d.plot x y).disp[py][px] = (d.disp[py][px] ^^ decide (py.val = y ∧ px.val = x)) := by
  unfold Drawing.plot
  split
  · by_cases hy : py.val = y
    · subst hy
      by_cases hx : px.val = x
      · subst hx; simp
      · simp [hx, Ne.symm hx]
    · simp [hy, Ne.symm hy]
  · have : ¬ (py.val = y ∧ px.val = x) := by have := py.isLt; have := px.isLt; omega
    simp [this]

/-- One bit is a hit exactly when its pixel is on the grid and was on. -/
theorem Drawing.plot_hit (d : Drawing) (x y : Nat) :
    (d.plot x y).hit = true ↔
      d.hit = true ∨ ∃ (py : Fin 32) (px : Fin 64), py.val = y ∧ px.val = x ∧ d.disp[py][px] = true := by
  unfold Drawing.plot
  split
  · rename_i h
    simp only [Bool.or_eq_true]
    refine or_congr Iff.rfl ⟨fun hd => ⟨⟨y, h.1⟩, ⟨x, h.2⟩, rfl, rfl, hd⟩, ?_⟩
    rintro ⟨py, px, rfl, rfl, hd⟩; exact hd
  · refine (or_iff_left ?_).symm
    rintro ⟨py, px, rfl, rfl, -⟩; have := py.isLt; have := px.isLt; omega

/-- The columns of a row byte drawn one after another, each at most once: a pixel is toggled when its column is among
them and its bit is 1, and a hit is a pixel so toggled that was on. -/
theorem Drawing.columns (d : Drawing) (x0 y : Nat) (b : Byte) (cs : List Nat) (hn : cs.Nodup) :
    let e := cs.foldl (fun d c => if b.getLsbD (7 - c) then d.plot (x0 + c) y else d) d
    (∀ (py : Fin 32) (px : Fin 64), e.disp[py][px] = (d.disp[py][px] ^^
      decide (py.val = y ∧ ∃ c ∈ cs, px.val = x0 + c ∧ b.getLsbD (7 - c) = true))) ∧
    (e.hit = true ↔ d.hit = true ∨ ∃ (py : Fin 32) (px : Fin 64),
      (py.val = y ∧ ∃ c ∈ cs, px.val = x0 + c ∧ b.getLsbD (7 - c) = true) ∧ d.disp[py][px] = true) := by
  induction cs generalizing d with
  | nil => simp
  | cons c cs ih =>
    obtain ⟨hc, hcs⟩ := List.nodup_cons.1 hn
    dsimp only [List.foldl_cons]
    by_cases hb : b.getLsbD (7 - c) = true
    · obtain ⟨h1, h2⟩ := ih (d.plot (x0 + c) y) hcs
      rw [if_pos hb]
      have apart : ∀ (px : Fin 64), px.val = x0 + c → ¬ ∃ c' ∈ cs, px.val = x0 + c' ∧ b.getLsbD (7 - c') = true := by
        rintro px hx ⟨c', hc', hx', -⟩
        exact hc ((show c' = c by omega) ▸ hc')
      refine ⟨fun py px => ?_, ?_⟩
      · rw [h1, Drawing.plot_disp]
        by_cases hy : py.val = y
        · by_cases hx : px.val = x0 + c
          · simp [hy, hx, hb, hc]
          · simp [hy, hx]
        · simp [hy]
      · rw [h2, Drawing.plot_hit]
        constructor
        · rintro ((h | ⟨py, px, hy, hx, hd⟩) | ⟨py, px, ⟨hy, c', hc', hx, hb'⟩, hd⟩)
          · exact .inl h
          · exact .inr ⟨py, px, ⟨hy, c, List.mem_cons_self, hx, hb⟩, hd⟩
          · have hne : ¬ (py.val = y ∧ px.val = x0 + c) := fun h => apart px h.2 ⟨c', hc', hx, hb'⟩
            rw [Drawing.plot_disp] at hd
            exact .inr ⟨py, px, ⟨hy, c', List.mem_cons_of_mem _ hc', hx, hb'⟩, by simpa [hne] using hd⟩
        · rintro (h | ⟨py, px, ⟨hy, c', hc', hx, hb'⟩, hd⟩)
          · exact .inl (.inl h)
          · rcases List.mem_cons.1 hc' with rfl | hc'
            · exact .inl (.inr ⟨py, px, hy, hx, hd⟩)
            · have hne : ¬ (py.val = y ∧ px.val = x0 + c) := fun h => apart px h.2 ⟨c', hc', hx, hb'⟩
              exact .inr ⟨py, px, ⟨hy, c', hc', hx, hb'⟩, by rw [Drawing.plot_disp]; simpa [hne] using hd⟩
    · rw [if_neg hb]
      simpa [hb] using ih d hcs

/-- A column of a row byte, said by its bit or by its pixel. -/
theorem column_iff (x0 px : Nat) (b : Byte) :
    (∃ c ∈ List.range 8, px = x0 + c ∧ b.getLsbD (7 - c) = true) ↔
      x0 ≤ px ∧ px < x0 + 8 ∧ b.getLsbD (7 - (px - x0)) = true := by
  constructor
  · rintro ⟨c, hc, rfl, hb⟩
    have := List.mem_range.1 hc
    exact ⟨by omega, by omega, by rwa [Nat.add_sub_cancel_left]⟩
  · rintro ⟨h1, h2, h3⟩
    exact ⟨px - x0, List.mem_range.2 (by omega), by omega, h3⟩

/-- One row byte (41_display.md R102). -/
theorem Drawing.row_spec (d : Drawing) (x0 y : Nat) (b : Byte) :
    (∀ (py : Fin 32) (px : Fin 64), (d.row x0 y b).disp[py][px] =
      (d.disp[py][px] ^^ spriteAt [b] x0 y px.val py.val)) ∧
    ((d.row x0 y b).hit = true ↔ d.hit = true ∨
      ∃ (py : Fin 32) (px : Fin 64), spriteAt [b] x0 y px.val py.val = true ∧ d.disp[py][px] = true) := by
  have key : ∀ (py : Fin 32) (px : Fin 64),
      (py.val = y ∧ ∃ c ∈ List.range 8, px.val = x0 + c ∧ b.getLsbD (7 - c) = true) ↔
        spriteAt [b] x0 y px.val py.val = true := by
    intro py px
    rw [column_iff]
    unfold spriteAt
    by_cases hy : y ≤ py.val
    · by_cases hy' : py.val = y
      · simp [hy', and_assoc]
      · simp [hy', show py.val - y ≠ 0 by omega]
    · simp [hy, show py.val ≠ y by omega]
  obtain ⟨h1, h2⟩ := Drawing.columns d x0 y b (List.range 8) List.nodup_range
  refine ⟨fun py px => ?_, ?_⟩
  · rw [Drawing.row, h1]
    congr 1
    rw [Bool.eq_iff_iff, decide_eq_true_iff, key]
  · rw [Drawing.row, h2]
    simp only [key]

/-- The row bytes of a sprite: its first row, and the others one row below. -/
theorem spriteAt_cons (b : Byte) (bs : List Byte) (x0 y0 x y : Nat) :
    spriteAt (b :: bs) x0 y0 x y = (spriteAt [b] x0 y0 x y ^^ spriteAt bs x0 (y0 + 1) x y) ∧
    ¬ (spriteAt [b] x0 y0 x y = true ∧ spriteAt bs x0 (y0 + 1) x y = true) := by
  unfold spriteAt
  by_cases hy : y0 ≤ y
  · by_cases hy' : y = y0
    · subst hy'; simp
    · have e : y - y0 = (y - (y0 + 1)) + 1 := by omega
      have : y0 + 1 ≤ y := by omega
      simp [e, hy, this]
  · simp [hy, show ¬ y0 + 1 ≤ y by omega]

/-- A whole sprite (41_display.md R101 to R103): the pixels under a 1 are toggled, and it is a hit exactly when one of
them was on. -/
theorem Drawing.rows_spec (bs : List Byte) (d : Drawing) (x0 y0 : Nat) :
    (∀ (py : Fin 32) (px : Fin 64), (Drawing.rows d x0 y0 bs).disp[py][px] =
      (d.disp[py][px] ^^ spriteAt bs x0 y0 px.val py.val)) ∧
    ((Drawing.rows d x0 y0 bs).hit = true ↔ d.hit = true ∨
      ∃ (py : Fin 32) (px : Fin 64), spriteAt bs x0 y0 px.val py.val = true ∧ d.disp[py][px] = true) := by
  induction bs generalizing d y0 with
  | nil => simp [Drawing.rows, spriteAt]
  | cons b bs ih =>
    obtain ⟨h1, h2⟩ := ih (d.row x0 y0 b) (y0 + 1)
    obtain ⟨r1, r2⟩ := Drawing.row_spec d x0 y0 b
    have hs := fun x y => spriteAt_cons b bs x0 y0 x y
    refine ⟨fun py px => ?_, ?_⟩
    · rw [Drawing.rows, h1, r1, (hs _ _).1, Bool.xor_assoc]
    · rw [Drawing.rows, h2, r2]
      constructor
      · rintro ((h | ⟨py, px, h, hd⟩) | ⟨py, px, h, hd⟩)
        · exact .inl h
        · refine .inr ⟨py, px, ?_, hd⟩
          have := (hs px py).2
          rw [(hs _ _).1]; simp_all
        · have := (hs px py).2
          refine .inr ⟨py, px, by rw [(hs _ _).1]; simp_all, ?_⟩
          rw [r1] at hd; simp_all
      · rintro (h | ⟨py, px, h, hd⟩)
        · exact .inl (.inl h)
        · rw [(hs _ _).1] at h
          cases h' : spriteAt [b] x0 y0 px.val py.val
          · exact .inr ⟨py, px, by simpa [h'] using h, by rw [r1, h', hd]; rfl⟩
          · exact .inl (.inr ⟨py, px, h', hd⟩)

end Sys2Proof.Machine
end

