-- ==== Sys2Proof/Laws/State.lean ====
section
/-! SUPPORT. What each named update of State does to each field, so that no proof unfolds a record update. -/

namespace Sys2Proof.Machine

variable (s : State)

/-! ### `withPc` -/

@[simp] theorem State.withPc_mem (t : Word) : (s.withPc t).mem = s.mem := rfl
@[simp] theorem State.withPc_v (t : Word) : (s.withPc t).v = s.v := rfl
@[simp] theorem State.withPc_i (t : Word) : (s.withPc t).i = s.i := rfl
@[simp] theorem State.withPc_pc (t : Word) : (s.withPc t).pc = t := rfl
@[simp] theorem State.withPc_stack (t : Word) : (s.withPc t).stack = s.stack := rfl
@[simp] theorem State.withPc_sp (t : Word) : (s.withPc t).sp = s.sp := rfl
@[simp] theorem State.withPc_dt (t : Word) : (s.withPc t).dt = s.dt := rfl
@[simp] theorem State.withPc_st (t : Word) : (s.withPc t).st = s.st := rfl
@[simp] theorem State.withPc_disp (t : Word) : (s.withPc t).disp = s.disp := rfl
@[simp] theorem State.withPc_fault (t : Word) : (s.withPc t).fault = s.fault := rfl
@[simp] theorem State.withPc_cfg (t : Word) : (s.withPc t).cfg = s.cfg := rfl
@[simp] theorem State.withPc_env (t : Word) : (s.withPc t).env = s.env := rfl
@[simp] theorem State.withPc_event (t : Word) : (s.withPc t).event = s.event := rfl
@[simp] theorem State.withPc_reg (t : Word) (r : Reg) : (s.withPc t).reg r = s.reg r := rfl
@[simp] theorem State.withPc_readByte (t : Word) (m : Nat) : (s.withPc t).readByte m = s.readByte m := rfl

/-! ### `withI` -/

@[simp] theorem State.withI_mem (a : Word) : (s.withI a).mem = s.mem := rfl
@[simp] theorem State.withI_v (a : Word) : (s.withI a).v = s.v := rfl
@[simp] theorem State.withI_i (a : Word) : (s.withI a).i = a := rfl
@[simp] theorem State.withI_pc (a : Word) : (s.withI a).pc = s.pc := rfl
@[simp] theorem State.withI_stack (a : Word) : (s.withI a).stack = s.stack := rfl
@[simp] theorem State.withI_sp (a : Word) : (s.withI a).sp = s.sp := rfl
@[simp] theorem State.withI_dt (a : Word) : (s.withI a).dt = s.dt := rfl
@[simp] theorem State.withI_st (a : Word) : (s.withI a).st = s.st := rfl
@[simp] theorem State.withI_disp (a : Word) : (s.withI a).disp = s.disp := rfl
@[simp] theorem State.withI_fault (a : Word) : (s.withI a).fault = s.fault := rfl
@[simp] theorem State.withI_cfg (a : Word) : (s.withI a).cfg = s.cfg := rfl
@[simp] theorem State.withI_env (a : Word) : (s.withI a).env = s.env := rfl
@[simp] theorem State.withI_event (a : Word) : (s.withI a).event = s.event := rfl
@[simp] theorem State.withI_reg (a : Word) (r : Reg) : (s.withI a).reg r = s.reg r := rfl
@[simp] theorem State.withI_readByte (a : Word) (m : Nat) : (s.withI a).readByte m = s.readByte m := rfl

/-! ### `withDt` -/

@[simp] theorem State.withDt_mem (b : Byte) : (s.withDt b).mem = s.mem := rfl
@[simp] theorem State.withDt_v (b : Byte) : (s.withDt b).v = s.v := rfl
@[simp] theorem State.withDt_i (b : Byte) : (s.withDt b).i = s.i := rfl
@[simp] theorem State.withDt_pc (b : Byte) : (s.withDt b).pc = s.pc := rfl
@[simp] theorem State.withDt_stack (b : Byte) : (s.withDt b).stack = s.stack := rfl
@[simp] theorem State.withDt_sp (b : Byte) : (s.withDt b).sp = s.sp := rfl
@[simp] theorem State.withDt_dt (b : Byte) : (s.withDt b).dt = b := rfl
@[simp] theorem State.withDt_st (b : Byte) : (s.withDt b).st = s.st := rfl
@[simp] theorem State.withDt_disp (b : Byte) : (s.withDt b).disp = s.disp := rfl
@[simp] theorem State.withDt_fault (b : Byte) : (s.withDt b).fault = s.fault := rfl
@[simp] theorem State.withDt_cfg (b : Byte) : (s.withDt b).cfg = s.cfg := rfl
@[simp] theorem State.withDt_env (b : Byte) : (s.withDt b).env = s.env := rfl
@[simp] theorem State.withDt_event (b : Byte) : (s.withDt b).event = s.event := rfl
@[simp] theorem State.withDt_reg (b : Byte) (r : Reg) : (s.withDt b).reg r = s.reg r := rfl
@[simp] theorem State.withDt_readByte (b : Byte) (m : Nat) : (s.withDt b).readByte m = s.readByte m := rfl

/-! ### `withSt` -/

@[simp] theorem State.withSt_mem (b : Byte) : (s.withSt b).mem = s.mem := rfl
@[simp] theorem State.withSt_v (b : Byte) : (s.withSt b).v = s.v := rfl
@[simp] theorem State.withSt_i (b : Byte) : (s.withSt b).i = s.i := rfl
@[simp] theorem State.withSt_pc (b : Byte) : (s.withSt b).pc = s.pc := rfl
@[simp] theorem State.withSt_stack (b : Byte) : (s.withSt b).stack = s.stack := rfl
@[simp] theorem State.withSt_sp (b : Byte) : (s.withSt b).sp = s.sp := rfl
@[simp] theorem State.withSt_dt (b : Byte) : (s.withSt b).dt = s.dt := rfl
@[simp] theorem State.withSt_st (b : Byte) : (s.withSt b).st = b := rfl
@[simp] theorem State.withSt_disp (b : Byte) : (s.withSt b).disp = s.disp := rfl
@[simp] theorem State.withSt_fault (b : Byte) : (s.withSt b).fault = s.fault := rfl
@[simp] theorem State.withSt_cfg (b : Byte) : (s.withSt b).cfg = s.cfg := rfl
@[simp] theorem State.withSt_env (b : Byte) : (s.withSt b).env = s.env := rfl
@[simp] theorem State.withSt_event (b : Byte) : (s.withSt b).event = s.event := rfl
@[simp] theorem State.withSt_reg (b : Byte) (r : Reg) : (s.withSt b).reg r = s.reg r := rfl
@[simp] theorem State.withSt_readByte (b : Byte) (m : Nat) : (s.withSt b).readByte m = s.readByte m := rfl

/-! ### `withDisp` -/

@[simp] theorem State.withDisp_mem (d : Display) : (s.withDisp d).mem = s.mem := rfl
@[simp] theorem State.withDisp_v (d : Display) : (s.withDisp d).v = s.v := rfl
@[simp] theorem State.withDisp_i (d : Display) : (s.withDisp d).i = s.i := rfl
@[simp] theorem State.withDisp_pc (d : Display) : (s.withDisp d).pc = s.pc := rfl
@[simp] theorem State.withDisp_stack (d : Display) : (s.withDisp d).stack = s.stack := rfl
@[simp] theorem State.withDisp_sp (d : Display) : (s.withDisp d).sp = s.sp := rfl
@[simp] theorem State.withDisp_dt (d : Display) : (s.withDisp d).dt = s.dt := rfl
@[simp] theorem State.withDisp_st (d : Display) : (s.withDisp d).st = s.st := rfl
@[simp] theorem State.withDisp_disp (d : Display) : (s.withDisp d).disp = d := rfl
@[simp] theorem State.withDisp_fault (d : Display) : (s.withDisp d).fault = s.fault := rfl
@[simp] theorem State.withDisp_cfg (d : Display) : (s.withDisp d).cfg = s.cfg := rfl
@[simp] theorem State.withDisp_env (d : Display) : (s.withDisp d).env = s.env := rfl
@[simp] theorem State.withDisp_event (d : Display) : (s.withDisp d).event = s.event := rfl
@[simp] theorem State.withDisp_reg (d : Display) (r : Reg) : (s.withDisp d).reg r = s.reg r := rfl
@[simp] theorem State.withDisp_readByte (d : Display) (m : Nat) : (s.withDisp d).readByte m = s.readByte m := rfl

/-! ### `withV` -/

@[simp] theorem State.withV_mem (w : Vector Byte 16) : (s.withV w).mem = s.mem := rfl
@[simp] theorem State.withV_v (w : Vector Byte 16) : (s.withV w).v = w := rfl
@[simp] theorem State.withV_i (w : Vector Byte 16) : (s.withV w).i = s.i := rfl
@[simp] theorem State.withV_pc (w : Vector Byte 16) : (s.withV w).pc = s.pc := rfl
@[simp] theorem State.withV_stack (w : Vector Byte 16) : (s.withV w).stack = s.stack := rfl
@[simp] theorem State.withV_sp (w : Vector Byte 16) : (s.withV w).sp = s.sp := rfl
@[simp] theorem State.withV_dt (w : Vector Byte 16) : (s.withV w).dt = s.dt := rfl
@[simp] theorem State.withV_st (w : Vector Byte 16) : (s.withV w).st = s.st := rfl
@[simp] theorem State.withV_disp (w : Vector Byte 16) : (s.withV w).disp = s.disp := rfl
@[simp] theorem State.withV_fault (w : Vector Byte 16) : (s.withV w).fault = s.fault := rfl
@[simp] theorem State.withV_cfg (w : Vector Byte 16) : (s.withV w).cfg = s.cfg := rfl
@[simp] theorem State.withV_env (w : Vector Byte 16) : (s.withV w).env = s.env := rfl
@[simp] theorem State.withV_event (w : Vector Byte 16) : (s.withV w).event = s.event := rfl
@[simp] theorem State.withV_readByte (w : Vector Byte 16) (m : Nat) : (s.withV w).readByte m = s.readByte m := rfl

/-! ### `setReg` -/

@[simp] theorem State.setReg_mem (x : Reg) (b : Byte) : (s.setReg x b).mem = s.mem := rfl
@[simp] theorem State.setReg_v (x : Reg) (b : Byte) : (s.setReg x b).v = s.v.set x b := rfl
@[simp] theorem State.setReg_i (x : Reg) (b : Byte) : (s.setReg x b).i = s.i := rfl
@[simp] theorem State.setReg_pc (x : Reg) (b : Byte) : (s.setReg x b).pc = s.pc := rfl
@[simp] theorem State.setReg_stack (x : Reg) (b : Byte) : (s.setReg x b).stack = s.stack := rfl
@[simp] theorem State.setReg_sp (x : Reg) (b : Byte) : (s.setReg x b).sp = s.sp := rfl
@[simp] theorem State.setReg_dt (x : Reg) (b : Byte) : (s.setReg x b).dt = s.dt := rfl
@[simp] theorem State.setReg_st (x : Reg) (b : Byte) : (s.setReg x b).st = s.st := rfl
@[simp] theorem State.setReg_disp (x : Reg) (b : Byte) : (s.setReg x b).disp = s.disp := rfl
@[simp] theorem State.setReg_fault (x : Reg) (b : Byte) : (s.setReg x b).fault = s.fault := rfl
@[simp] theorem State.setReg_cfg (x : Reg) (b : Byte) : (s.setReg x b).cfg = s.cfg := rfl
@[simp] theorem State.setReg_env (x : Reg) (b : Byte) : (s.setReg x b).env = s.env := rfl
@[simp] theorem State.setReg_event (x : Reg) (b : Byte) : (s.setReg x b).event = s.event := rfl
@[simp] theorem State.setReg_readByte (x : Reg) (b : Byte) (m : Nat) : (s.setReg x b).readByte m = s.readByte m := rfl

/-! ### `setFlag` -/

@[simp] theorem State.setFlag_mem (c : Bool) : (s.setFlag c).mem = s.mem := rfl
@[simp] theorem State.setFlag_v (c : Bool) : (s.setFlag c).v = s.v.set regF (flagByte c) := rfl
@[simp] theorem State.setFlag_i (c : Bool) : (s.setFlag c).i = s.i := rfl
@[simp] theorem State.setFlag_pc (c : Bool) : (s.setFlag c).pc = s.pc := rfl
@[simp] theorem State.setFlag_stack (c : Bool) : (s.setFlag c).stack = s.stack := rfl
@[simp] theorem State.setFlag_sp (c : Bool) : (s.setFlag c).sp = s.sp := rfl
@[simp] theorem State.setFlag_dt (c : Bool) : (s.setFlag c).dt = s.dt := rfl
@[simp] theorem State.setFlag_st (c : Bool) : (s.setFlag c).st = s.st := rfl
@[simp] theorem State.setFlag_disp (c : Bool) : (s.setFlag c).disp = s.disp := rfl
@[simp] theorem State.setFlag_fault (c : Bool) : (s.setFlag c).fault = s.fault := rfl
@[simp] theorem State.setFlag_cfg (c : Bool) : (s.setFlag c).cfg = s.cfg := rfl
@[simp] theorem State.setFlag_env (c : Bool) : (s.setFlag c).env = s.env := rfl
@[simp] theorem State.setFlag_event (c : Bool) : (s.setFlag c).event = s.event := rfl
@[simp] theorem State.setFlag_readByte (c : Bool) (m : Nat) : (s.setFlag c).readByte m = s.readByte m := rfl

/-! ### `setResultAndFlag` -/

@[simp] theorem State.setResultAndFlag_mem (x : Reg) (r : Byte) (c : Bool) :
    (s.setResultAndFlag x r c).mem = s.mem := rfl
@[simp] theorem State.setResultAndFlag_v (x : Reg) (r : Byte) (c : Bool) :
    (s.setResultAndFlag x r c).v = (s.v.set x r).set regF (flagByte c) := rfl
@[simp] theorem State.setResultAndFlag_i (x : Reg) (r : Byte) (c : Bool) : (s.setResultAndFlag x r c).i = s.i := rfl
@[simp] theorem State.setResultAndFlag_pc (x : Reg) (r : Byte) (c : Bool) :
    (s.setResultAndFlag x r c).pc = s.pc := rfl
@[simp] theorem State.setResultAndFlag_stack (x : Reg) (r : Byte) (c : Bool) :
    (s.setResultAndFlag x r c).stack = s.stack := rfl
@[simp] theorem State.setResultAndFlag_sp (x : Reg) (r : Byte) (c : Bool) :
    (s.setResultAndFlag x r c).sp = s.sp := rfl
@[simp] theorem State.setResultAndFlag_dt (x : Reg) (r : Byte) (c : Bool) :
    (s.setResultAndFlag x r c).dt = s.dt := rfl
@[simp] theorem State.setResultAndFlag_st (x : Reg) (r : Byte) (c : Bool) :
    (s.setResultAndFlag x r c).st = s.st := rfl
@[simp] theorem State.setResultAndFlag_disp (x : Reg) (r : Byte) (c : Bool) :
    (s.setResultAndFlag x r c).disp = s.disp := rfl
@[simp] theorem State.setResultAndFlag_fault (x : Reg) (r : Byte) (c : Bool) :
    (s.setResultAndFlag x r c).fault = s.fault := rfl
@[simp] theorem State.setResultAndFlag_cfg (x : Reg) (r : Byte) (c : Bool) :
    (s.setResultAndFlag x r c).cfg = s.cfg := rfl
@[simp] theorem State.setResultAndFlag_env (x : Reg) (r : Byte) (c : Bool) :
    (s.setResultAndFlag x r c).env = s.env := rfl
@[simp] theorem State.setResultAndFlag_event (x : Reg) (r : Byte) (c : Bool) :
    (s.setResultAndFlag x r c).event = s.event := rfl
@[simp] theorem State.setResultAndFlag_readByte (x : Reg) (r : Byte) (c : Bool) (m : Nat) : (s.setResultAndFlag x r c).readByte m = s.readByte m := rfl

/-! ### `loadRegs` -/

@[simp] theorem State.loadRegs_mem (bs : List Byte) : (s.loadRegs bs).mem = s.mem := rfl
@[simp] theorem State.loadRegs_v (bs : List Byte) :
    (s.loadRegs bs).v = Vector.ofFn fun k : Fin 16 => (bs[k.val]?).getD (s.reg k) := rfl
@[simp] theorem State.loadRegs_i (bs : List Byte) : (s.loadRegs bs).i = s.i := rfl
@[simp] theorem State.loadRegs_pc (bs : List Byte) : (s.loadRegs bs).pc = s.pc := rfl
@[simp] theorem State.loadRegs_stack (bs : List Byte) : (s.loadRegs bs).stack = s.stack := rfl
@[simp] theorem State.loadRegs_sp (bs : List Byte) : (s.loadRegs bs).sp = s.sp := rfl
@[simp] theorem State.loadRegs_dt (bs : List Byte) : (s.loadRegs bs).dt = s.dt := rfl
@[simp] theorem State.loadRegs_st (bs : List Byte) : (s.loadRegs bs).st = s.st := rfl
@[simp] theorem State.loadRegs_disp (bs : List Byte) : (s.loadRegs bs).disp = s.disp := rfl
@[simp] theorem State.loadRegs_fault (bs : List Byte) : (s.loadRegs bs).fault = s.fault := rfl
@[simp] theorem State.loadRegs_cfg (bs : List Byte) : (s.loadRegs bs).cfg = s.cfg := rfl
@[simp] theorem State.loadRegs_env (bs : List Byte) : (s.loadRegs bs).env = s.env := rfl
@[simp] theorem State.loadRegs_event (bs : List Byte) : (s.loadRegs bs).event = s.event := rfl
@[simp] theorem State.loadRegs_readByte (bs : List Byte) (m : Nat) : (s.loadRegs bs).readByte m = s.readByte m := rfl

/-! ### `advance` -/

@[simp] theorem State.advance_mem : s.advance.mem = s.mem := rfl
@[simp] theorem State.advance_v : s.advance.v = s.v := rfl
@[simp] theorem State.advance_i : s.advance.i = s.i := rfl
@[simp] theorem State.advance_pc : s.advance.pc = s.pc + 2 := rfl
@[simp] theorem State.advance_stack : s.advance.stack = s.stack := rfl
@[simp] theorem State.advance_sp : s.advance.sp = s.sp := rfl
@[simp] theorem State.advance_dt : s.advance.dt = s.dt := rfl
@[simp] theorem State.advance_st : s.advance.st = s.st := rfl
@[simp] theorem State.advance_disp : s.advance.disp = s.disp := rfl
@[simp] theorem State.advance_fault : s.advance.fault = s.fault := rfl
@[simp] theorem State.advance_cfg : s.advance.cfg = s.cfg := rfl
@[simp] theorem State.advance_env : s.advance.env = s.env := rfl
@[simp] theorem State.advance_event : s.advance.event = s.event := rfl
@[simp] theorem State.advance_reg (r : Reg) : s.advance.reg r = s.reg r := rfl
@[simp] theorem State.advance_readByte (m : Nat) : s.advance.readByte m = s.readByte m := rfl

/-! ### `rewind` -/

@[simp] theorem State.rewind_mem : s.rewind.mem = s.mem := rfl
@[simp] theorem State.rewind_v : s.rewind.v = s.v := rfl
@[simp] theorem State.rewind_i : s.rewind.i = s.i := rfl
@[simp] theorem State.rewind_pc : s.rewind.pc = s.pc - 2 := rfl
@[simp] theorem State.rewind_stack : s.rewind.stack = s.stack := rfl
@[simp] theorem State.rewind_sp : s.rewind.sp = s.sp := rfl
@[simp] theorem State.rewind_dt : s.rewind.dt = s.dt := rfl
@[simp] theorem State.rewind_st : s.rewind.st = s.st := rfl
@[simp] theorem State.rewind_disp : s.rewind.disp = s.disp := rfl
@[simp] theorem State.rewind_fault : s.rewind.fault = s.fault := rfl
@[simp] theorem State.rewind_cfg : s.rewind.cfg = s.cfg := rfl
@[simp] theorem State.rewind_env : s.rewind.env = s.env := rfl
@[simp] theorem State.rewind_event : s.rewind.event = s.event := rfl
@[simp] theorem State.rewind_reg (r : Reg) : s.rewind.reg r = s.reg r := rfl
@[simp] theorem State.rewind_readByte (m : Nat) : s.rewind.readByte m = s.readByte m := rfl

/-! ### `pushPc` -/

@[simp] theorem State.pushPc_mem : s.pushPc.mem = s.mem := rfl
@[simp] theorem State.pushPc_v : s.pushPc.v = s.v := rfl
@[simp] theorem State.pushPc_i : s.pushPc.i = s.i := rfl
@[simp] theorem State.pushPc_pc : s.pushPc.pc = s.pc := rfl
@[simp] theorem State.pushPc_stack : s.pushPc.stack = s.stack.set (s.sp + 1 : Fin 16) s.pc := rfl
@[simp] theorem State.pushPc_sp : s.pushPc.sp = s.sp + 1 := rfl
@[simp] theorem State.pushPc_dt : s.pushPc.dt = s.dt := rfl
@[simp] theorem State.pushPc_st : s.pushPc.st = s.st := rfl
@[simp] theorem State.pushPc_disp : s.pushPc.disp = s.disp := rfl
@[simp] theorem State.pushPc_fault : s.pushPc.fault = s.fault := rfl
@[simp] theorem State.pushPc_cfg : s.pushPc.cfg = s.cfg := rfl
@[simp] theorem State.pushPc_env : s.pushPc.env = s.env := rfl
@[simp] theorem State.pushPc_event : s.pushPc.event = s.event := rfl
@[simp] theorem State.pushPc_reg (r : Reg) : s.pushPc.reg r = s.reg r := rfl
@[simp] theorem State.pushPc_readByte (m : Nat) : s.pushPc.readByte m = s.readByte m := rfl

/-! ### `popPc` -/

@[simp] theorem State.popPc_mem : s.popPc.mem = s.mem := rfl
@[simp] theorem State.popPc_v : s.popPc.v = s.v := rfl
@[simp] theorem State.popPc_i : s.popPc.i = s.i := rfl
@[simp] theorem State.popPc_pc : s.popPc.pc = s.stack[s.sp] := rfl
@[simp] theorem State.popPc_stack : s.popPc.stack = s.stack := rfl
@[simp] theorem State.popPc_sp : s.popPc.sp = s.sp - 1 := rfl
@[simp] theorem State.popPc_dt : s.popPc.dt = s.dt := rfl
@[simp] theorem State.popPc_st : s.popPc.st = s.st := rfl
@[simp] theorem State.popPc_disp : s.popPc.disp = s.disp := rfl
@[simp] theorem State.popPc_fault : s.popPc.fault = s.fault := rfl
@[simp] theorem State.popPc_cfg : s.popPc.cfg = s.cfg := rfl
@[simp] theorem State.popPc_env : s.popPc.env = s.env := rfl
@[simp] theorem State.popPc_event : s.popPc.event = s.event := rfl
@[simp] theorem State.popPc_reg (r : Reg) : s.popPc.reg r = s.reg r := rfl
@[simp] theorem State.popPc_readByte (m : Nat) : s.popPc.readByte m = s.readByte m := rfl

/-! ### `raise` -/

@[simp] theorem State.raise_mem (k : FaultKind) (w : Word) : (s.raise k w).mem = s.mem := rfl
@[simp] theorem State.raise_v (k : FaultKind) (w : Word) : (s.raise k w).v = s.v := rfl
@[simp] theorem State.raise_i (k : FaultKind) (w : Word) : (s.raise k w).i = s.i := rfl
@[simp] theorem State.raise_pc (k : FaultKind) (w : Word) : (s.raise k w).pc = s.pc := rfl
@[simp] theorem State.raise_stack (k : FaultKind) (w : Word) : (s.raise k w).stack = s.stack := rfl
@[simp] theorem State.raise_sp (k : FaultKind) (w : Word) : (s.raise k w).sp = s.sp := rfl
@[simp] theorem State.raise_dt (k : FaultKind) (w : Word) : (s.raise k w).dt = s.dt := rfl
@[simp] theorem State.raise_st (k : FaultKind) (w : Word) : (s.raise k w).st = s.st := rfl
@[simp] theorem State.raise_disp (k : FaultKind) (w : Word) : (s.raise k w).disp = s.disp := rfl
@[simp] theorem State.raise_fault (k : FaultKind) (w : Word) :
    (s.raise k w).fault = some { kind := k, fpc := s.pc, fword := w } := rfl
@[simp] theorem State.raise_cfg (k : FaultKind) (w : Word) : (s.raise k w).cfg = s.cfg := rfl
@[simp] theorem State.raise_env (k : FaultKind) (w : Word) : (s.raise k w).env = s.env := rfl
@[simp] theorem State.raise_event (k : FaultKind) (w : Word) : (s.raise k w).event = .faulted k := rfl
@[simp] theorem State.raise_reg (k : FaultKind) (w : Word) (r : Reg) : (s.raise k w).reg r = s.reg r := rfl
@[simp] theorem State.raise_readByte (k : FaultKind) (w : Word) (m : Nat) : (s.raise k w).readByte m = s.readByte m := rfl

/-! ### `unimplemented` -/

@[simp] theorem State.unimplemented_mem (w : Word) : (s.unimplemented w).mem = s.mem := rfl
@[simp] theorem State.unimplemented_v (w : Word) : (s.unimplemented w).v = s.v := rfl
@[simp] theorem State.unimplemented_i (w : Word) : (s.unimplemented w).i = s.i := rfl
@[simp] theorem State.unimplemented_pc (w : Word) : (s.unimplemented w).pc = s.pc + 2 := rfl
@[simp] theorem State.unimplemented_stack (w : Word) : (s.unimplemented w).stack = s.stack := rfl
@[simp] theorem State.unimplemented_sp (w : Word) : (s.unimplemented w).sp = s.sp := rfl
@[simp] theorem State.unimplemented_dt (w : Word) : (s.unimplemented w).dt = s.dt := rfl
@[simp] theorem State.unimplemented_st (w : Word) : (s.unimplemented w).st = s.st := rfl
@[simp] theorem State.unimplemented_disp (w : Word) : (s.unimplemented w).disp = s.disp := rfl
@[simp] theorem State.unimplemented_fault (w : Word) : (s.unimplemented w).fault = s.fault := rfl
@[simp] theorem State.unimplemented_cfg (w : Word) : (s.unimplemented w).cfg = s.cfg := rfl
@[simp] theorem State.unimplemented_env (w : Word) : (s.unimplemented w).env = s.env := rfl
@[simp] theorem State.unimplemented_event (w : Word) : (s.unimplemented w).event = .unimpl w := rfl
@[simp] theorem State.unimplemented_reg (w : Word) (r : Reg) : (s.unimplemented w).reg r = s.reg r := rfl
@[simp] theorem State.unimplemented_readByte (w : Word) (m : Nat) : (s.unimplemented w).readByte m = s.readByte m := rfl

/-! ### `accept` -/

@[simp] theorem State.accept_mem : s.accept.mem = s.mem := rfl
@[simp] theorem State.accept_v : s.accept.v = s.v := rfl
@[simp] theorem State.accept_i : s.accept.i = s.i := rfl
@[simp] theorem State.accept_pc : s.accept.pc = s.pc := rfl
@[simp] theorem State.accept_stack : s.accept.stack = s.stack := rfl
@[simp] theorem State.accept_sp : s.accept.sp = s.sp := rfl
@[simp] theorem State.accept_dt : s.accept.dt = s.dt := rfl
@[simp] theorem State.accept_st : s.accept.st = s.st := rfl
@[simp] theorem State.accept_disp : s.accept.disp = s.disp := rfl
@[simp] theorem State.accept_fault : s.accept.fault = s.fault := rfl
@[simp] theorem State.accept_cfg : s.accept.cfg = s.cfg := rfl
@[simp] theorem State.accept_env : s.accept.env = s.env.afterStrobe := rfl
@[simp] theorem State.accept_event : s.accept.event = .noEvent := rfl
@[simp] theorem State.accept_reg (r : Reg) : s.accept.reg r = s.reg r := rfl
@[simp] theorem State.accept_readByte (m : Nat) : s.accept.readByte m = s.readByte m := rfl

/-! ### `beginStep` -/

@[simp] theorem State.beginStep_mem (d : Draws) : (s.beginStep d).mem = s.mem := rfl
@[simp] theorem State.beginStep_v (d : Draws) : (s.beginStep d).v = s.v := rfl
@[simp] theorem State.beginStep_i (d : Draws) : (s.beginStep d).i = s.i := rfl
@[simp] theorem State.beginStep_pc (d : Draws) : (s.beginStep d).pc = s.pc := rfl
@[simp] theorem State.beginStep_stack (d : Draws) : (s.beginStep d).stack = s.stack := rfl
@[simp] theorem State.beginStep_sp (d : Draws) : (s.beginStep d).sp = s.sp := rfl
@[simp] theorem State.beginStep_dt (d : Draws) : (s.beginStep d).dt = s.dt := rfl
@[simp] theorem State.beginStep_st (d : Draws) : (s.beginStep d).st = s.st := rfl
@[simp] theorem State.beginStep_disp (d : Draws) : (s.beginStep d).disp = s.disp := rfl
@[simp] theorem State.beginStep_fault (d : Draws) : (s.beginStep d).fault = s.fault := rfl
@[simp] theorem State.beginStep_cfg (d : Draws) : (s.beginStep d).cfg = s.cfg := rfl
@[simp] theorem State.beginStep_env (d : Draws) :
    (s.beginStep d).env = { s.env.afterStrobe with ports := d } := rfl
@[simp] theorem State.beginStep_event (d : Draws) : (s.beginStep d).event = .noEvent := rfl
@[simp] theorem State.beginStep_reg (d : Draws) (r : Reg) : (s.beginStep d).reg r = s.reg r := rfl
@[simp] theorem State.beginStep_readByte (d : Draws) (m : Nat) : (s.beginStep d).readByte m = s.readByte m := rfl

/-! ### The conditional updates -/

@[simp] theorem State.skipIf_mem (c : Bool) : (s.skipIf c).mem = s.mem := by cases c <;> rfl
@[simp] theorem State.skipIf_v (c : Bool) : (s.skipIf c).v = s.v := by cases c <;> rfl
@[simp] theorem State.skipIf_i (c : Bool) : (s.skipIf c).i = s.i := by cases c <;> rfl
@[simp] theorem State.skipIf_pc (c : Bool) : (s.skipIf c).pc = if c then s.pc + 2 else s.pc := by cases c <;> rfl
@[simp] theorem State.skipIf_stack (c : Bool) : (s.skipIf c).stack = s.stack := by cases c <;> rfl
@[simp] theorem State.skipIf_sp (c : Bool) : (s.skipIf c).sp = s.sp := by cases c <;> rfl
@[simp] theorem State.skipIf_dt (c : Bool) : (s.skipIf c).dt = s.dt := by cases c <;> rfl
@[simp] theorem State.skipIf_st (c : Bool) : (s.skipIf c).st = s.st := by cases c <;> rfl
@[simp] theorem State.skipIf_disp (c : Bool) : (s.skipIf c).disp = s.disp := by cases c <;> rfl
@[simp] theorem State.skipIf_fault (c : Bool) : (s.skipIf c).fault = s.fault := by cases c <;> rfl
@[simp] theorem State.skipIf_cfg (c : Bool) : (s.skipIf c).cfg = s.cfg := by cases c <;> rfl
@[simp] theorem State.skipIf_env (c : Bool) : (s.skipIf c).env = s.env := by cases c <;> rfl
@[simp] theorem State.skipIf_event (c : Bool) : (s.skipIf c).event = s.event := by cases c <;> rfl
@[simp] theorem State.skipIf_reg (c : Bool) (r : Reg) : (s.skipIf c).reg r = s.reg r := by cases c <;> rfl
@[simp] theorem State.skipIf_readByte (c : Bool) (m : Nat) : (s.skipIf c).readByte m = s.readByte m := by cases c <;> rfl

@[simp] theorem State.tick_mem : s.tick.mem = s.mem := by unfold State.tick; split <;> simp_all
@[simp] theorem State.tick_v : s.tick.v = s.v := by unfold State.tick; split <;> simp_all
@[simp] theorem State.tick_i : s.tick.i = s.i := by unfold State.tick; split <;> simp_all
@[simp] theorem State.tick_pc : s.tick.pc = s.pc := by unfold State.tick; split <;> simp_all
@[simp] theorem State.tick_stack : s.tick.stack = s.stack := by unfold State.tick; split <;> simp_all
@[simp] theorem State.tick_sp : s.tick.sp = s.sp := by unfold State.tick; split <;> simp_all
@[simp] theorem State.tick_dt : s.tick.dt = if s.halted then s.dt else countDown s.dt := by unfold State.tick; split <;> simp_all
@[simp] theorem State.tick_st : s.tick.st = if s.halted then s.st else countDown s.st := by unfold State.tick; split <;> simp_all
@[simp] theorem State.tick_disp : s.tick.disp = s.disp := by unfold State.tick; split <;> simp_all
@[simp] theorem State.tick_fault : s.tick.fault = s.fault := by unfold State.tick; split <;> simp_all
@[simp] theorem State.tick_cfg : s.tick.cfg = s.cfg := by unfold State.tick; split <;> simp_all
@[simp] theorem State.tick_env : s.tick.env = s.env := by unfold State.tick; split <;> simp_all
@[simp] theorem State.tick_event : s.tick.event = s.event := by unfold State.tick; split <;> simp_all
@[simp] theorem State.tick_readByte (m : Nat) : s.tick.readByte m = s.readByte m := by simp [State.readByte]
@[simp] theorem State.tick_reg (r : Reg) : s.tick.reg r = s.reg r := by simp [State.reg]

/-! ### Registers after a register write -/

@[simp] theorem State.setReg_reg (x : Reg) (b : Byte) (r : Reg) :
    (s.setReg x b).reg r = if r = x then b else s.reg r := by
  simp only [State.reg, State.setReg, Fin.getElem_fin, Vector.getElem_set, Fin.ext_iff, eq_comm]

@[simp] theorem State.setFlag_reg (c : Bool) (r : Reg) :
    (s.setFlag c).reg r = if r = regF then flagByte c else s.reg r := State.setReg_reg s regF (flagByte c) r

@[simp] theorem State.setResultAndFlag_reg (x : Reg) (b : Byte) (c : Bool) (r : Reg) :
    (s.setResultAndFlag x b c).reg r = if r = regF then flagByte c else if r = x then b else s.reg r := by
  simp [State.setResultAndFlag]

@[simp] theorem State.loadRegs_reg (bs : List Byte) (r : Reg) :
    (s.loadRegs bs).reg r = (bs[r.val]?).getD (s.reg r) := by
  simp [State.reg, State.loadRegs, State.withV]

/-! ### `halted` -/

@[simp] theorem State.halted_eq_false_iff : s.halted = false ↔ s.fault = none := by
  simp [State.halted]

@[simp] theorem State.halted_eq_true_iff : s.halted = true ↔ s.fault ≠ none := by
  simp [State.halted, Option.isSome_iff_ne_none]

end Sys2Proof.Machine
end

