-- ==== Sys2Proof/Laws/Memory.lean ====
section
/-! SUPPORT. Memory reads what was last written, and every memory operation keeps the canonical form. -/

namespace Sys2Proof.Machine

variable (font : Vector Byte 80) (m : Memory) (a : Nat) (b : Byte)

/-! ### One byte -/

theorem Memory.read_place (x : Nat) :
    Memory.read font (m.place a b) x = if x = a then b else Memory.read font m x := by
  induction m with
  | nil => simp [Memory.place, Memory.read, eq_comm]
  | cons c rest ih =>
    obtain ⟨k, c⟩ := c
    simp only [Memory.place]
    split
    · simp [Memory.read, eq_comm]
    · split
      · subst k
        by_cases h : x = a
        · subst x; simp [Memory.read]
        · simp [Memory.read, h, Ne.symm h]
      · by_cases h : k = x
        · subst k; simp_all [Memory.read, eq_comm]
        · simp [Memory.read, h, ih]

theorem Memory.read_unlist (x : Nat) :
    Memory.read font (m.filter fun c => c.1 != a) x =
      if x = a then Memory.unlisted font a else Memory.read font m x := by
  induction m with
  | nil => by_cases h : x = a <;> simp [Memory.read, h]
  | cons c rest ih =>
    obtain ⟨k, c⟩ := c
    by_cases hk : k = a
    · subst k; by_cases h : x = a <;> simp_all [Memory.read, eq_comm]
    · by_cases h : k = x
      · subst k; simp [Memory.read, hk]
      · simp [Memory.read, hk, h, ih]

/-- A read after a write: the byte written where it was written, the old byte elsewhere (20_memory.md R57). -/
@[simp] theorem Memory.read_write (x : Nat) :
    Memory.read font (m.write font a b) x = if x = a then b else Memory.read font m x := by
  unfold Memory.write
  split
  · rw [Memory.read_unlist]; split <;> simp_all
  · exact Memory.read_place font m a b x

/-! ### A run of bytes -/

/-- A read after a run of writes: inside the run its byte, outside it the old byte. -/
theorem Memory.read_writeList (bs : List Byte) (x : Nat) :
    Memory.read font (m.writeList font a bs) x =
      if h : a ≤ x ∧ x < a + bs.length then bs[x - a]'(by omega) else Memory.read font m x := by
  induction bs generalizing m a with
  | nil => simp [Memory.writeList]
  | cons b bs ih =>
    rw [Memory.writeList, ih]
    by_cases h1 : a + 1 ≤ x ∧ x < a + 1 + bs.length
    · have hx : x - a = (x - (a + 1)) + 1 := by omega
      have h2 : a ≤ x ∧ x < a + (bs.length + 1) := by omega
      simp only [h1, and_self, ↓reduceDIte, List.length_cons, h2, hx, List.getElem_cons_succ]
    · rw [dif_neg h1, Memory.read_write]
      by_cases hx : x = a
      · subst x; simp
      · have h2 : ¬ (a ≤ x ∧ x < a + (b :: bs).length) := by simp only [List.length_cons]; omega
        rw [if_neg hx, dif_neg h2]

/-! ### The canonical form -/

/-- The canonical form, as a proposition. -/
theorem Memory.wf_iff : Memory.wf font m = true ↔
    m.Pairwise (fun c d => c.1 < d.1) ∧ ∀ c ∈ m, c.1 < memSize ∧ c.2 ≠ Memory.unlisted font c.1 := by
  simp [Memory.wf]

theorem Memory.mem_place {c : Host.Cell} (h : c ∈ m.place a b) : c = (a, b) ∨ c ∈ m := by
  induction m with
  | nil => simpa [Memory.place] using h
  | cons d rest ih =>
    obtain ⟨k, e⟩ := d
    simp only [Memory.place] at h
    split at h
    · simpa using h
    · split at h
      · rcases List.mem_cons.1 h with h | h
        · exact .inl h
        · exact .inr (List.mem_cons_of_mem _ h)
      · rcases List.mem_cons.1 h with h | h
        · exact .inr (h ▸ List.mem_cons_self ..)
        · exact (ih h).imp id (List.mem_cons_of_mem _)

theorem Memory.pairwise_place (h : m.Pairwise fun c d => c.1 < d.1) :
    (m.place a b).Pairwise fun c d => c.1 < d.1 := by
  induction m with
  | nil => simp [Memory.place]
  | cons d rest ih =>
    obtain ⟨k, e⟩ := d
    have ⟨hd, hr⟩ := List.pairwise_cons.1 h
    simp only [Memory.place]
    split
    · refine List.pairwise_cons.2 ⟨fun c hc => ?_, h⟩
      rcases List.mem_cons.1 hc with rfl | hc
      · assumption
      · have := hd c hc; simp only at this ⊢; omega
    · split
      · subst k; exact List.pairwise_cons.2 ⟨hd, hr⟩
      · refine List.pairwise_cons.2 ⟨fun c hc => ?_, ih hr⟩
        rcases Memory.mem_place rest a b hc with rfl | hc
        · simp only; omega
        · exact hd c hc

/-- A write inside the address space keeps the canonical form. -/
theorem Memory.wf_write (h : Memory.wf font m = true) (ha : a < memSize) :
    Memory.wf font (m.write font a b) = true := by
  rw [Memory.wf_iff] at h ⊢
  obtain ⟨hp, hc⟩ := h
  unfold Memory.write
  split
  · exact ⟨hp.filter _, fun c h => hc c (List.mem_filter.1 h).1⟩
  · refine ⟨Memory.pairwise_place m a b hp, fun c h => ?_⟩
    rcases Memory.mem_place m a b h with rfl | h
    · exact ⟨ha, by assumption⟩
    · exact hc c h

/-- A run of writes inside the address space keeps the canonical form. -/
theorem Memory.wf_writeList (bs : List Byte) (h : Memory.wf font m = true) (ha : a + bs.length ≤ memSize) :
    Memory.wf font (m.writeList font a bs) = true := by
  induction bs generalizing m a with
  | nil => exact h
  | cons b bs ih =>
    simp only [List.length_cons] at ha
    exact ih _ _ (Memory.wf_write font m a b h (by omega)) (by omega)

/-- The memory of State.reset lists nothing, so it is canonical. -/
theorem Memory.wf_reset : Memory.wf State.reset.cfg.fontRom State.reset.mem = true := rfl

/-! ### The accesses of the spec: MemRead and MemWrite (00_scope.md R11) -/

theorem inRange_iff (n : Nat) : inRange a n = true ↔ n = 0 ∨ a + n ≤ 0x1000 := by
  unfold inRange memSize; simp

variable (s : State)

/-- MemRead fails exactly out of range. -/
theorem State.memRead_eq_none_iff (n : Nat) : s.memRead a n = none ↔ n ≠ 0 ∧ 0x1000 < a + n := by
  unfold State.memRead inRange memSize; simp

/-- What MemRead answers, when it does. -/
theorem State.memRead_eq_some {n : Nat} {bs : List Byte} (h : s.memRead a n = some bs) :
    (n = 0 ∨ a + n ≤ 0x1000) ∧ bs = (List.range n).map fun k => s.readByte (a + k) := by
  simp only [State.memRead] at h
  split at h
  · exact ⟨(inRange_iff a n).1 ‹_›, (Option.some.inj h).symm⟩
  · cases h

/-- MemWrite fails exactly out of range. -/
theorem State.memWrite_eq_none_iff (bs : List Byte) :
    s.memWrite a bs = none ↔ bs ≠ [] ∧ 0x1000 < a + bs.length := by
  unfold State.memWrite inRange memSize; simp

/-- What MemWrite answers, when it does: only `mem` is written. -/
theorem State.memWrite_eq_some {t : State} {bs : List Byte} (h : s.memWrite a bs = some t) :
    (bs = [] ∨ a + bs.length ≤ 0x1000) ∧ t = { s with mem := Memory.writeList s.cfg.fontRom s.mem a bs } := by
  simp only [State.memWrite] at h
  split at h
  · exact ⟨by simpa using (inRange_iff a bs.length).1 ‹_›, (Option.some.inj h).symm⟩
  · cases h

/-- MemWrite, byte by byte: the bytes written read back, every other byte reads as before. -/
theorem State.memWrite_readByte {t : State} {bs : List Byte} (h : s.memWrite a bs = some t) (x : Nat) :
    t.readByte x = if h : a ≤ x ∧ x < a + bs.length then bs[x - a]'(by omega) else s.readByte x := by
  obtain ⟨-, rfl⟩ := State.memWrite_eq_some a s h
  exact Memory.read_writeList _ _ _ _ _

/-- MemWrite keeps the canonical form. -/
theorem State.memWrite_wf {t : State} {bs : List Byte} (h : s.memWrite a bs = some t)
    (hm : Memory.wf s.cfg.fontRom s.mem = true) : Memory.wf t.cfg.fontRom t.mem = true := by
  obtain ⟨hr, rfl⟩ := State.memWrite_eq_some a s h
  rcases hr with rfl | hr
  · exact hm
  · exact Memory.wf_writeList _ _ _ _ hm hr

end Sys2Proof.Machine
end

