-- ==== Sys2Proof/Laws/Operands.lean ====
section
/-! SUPPORT. The operand forms as arithmetic on natural numbers, and what the shared operations leave alone. -/

namespace Sys2Proof.Machine

/-! ### Widening, flags, digits, keys -/

theorem zextAddr_toNat (a : Addr) : (zextAddr a).toNat = a.toNat := by
  have := a.isLt
  simp [zextAddr]; omega

theorem zextByte_toNat (b : Byte) : (zextByte b).toNat = b.toNat := by
  have := b.isLt
  simp [zextByte]; omega

theorem glyphAddr_toNat (b : Byte) : (glyphAddr b).toNat = 0x050 + 5 * b.toNat := by
  have := b.isLt
  rw [glyphAddr, BitVec.toNat_add, BitVec.toNat_mul, zextByte_toNat]
  simp; omega

theorem flagByte_toNat (c : Bool) : (flagByte c).toNat = if c = true then 1 else 0 := by cases c <;> rfl

theorem keyByte_toNat (k : Fin 16) : (keyByte k).toNat = k.val := by
  have := k.isLt
  simp [keyByte]; omega

theorem decimalDigits_length (b : Byte) : (decimalDigits b).length = 3 := rfl

/-- A key number is a byte up to 0x0F (43_skip.md R127). -/
theorem keyOf_eq_some_iff (b : Byte) (k : Fin 16) : keyOf b = some k ↔ b.toNat = k.val := by
  have := k.isLt
  unfold keyOf
  split <;> simp [Fin.ext_iff]; omega

theorem keyOf_eq_none_iff (b : Byte) : keyOf b = none ↔ 0x0F < b.toNat := by
  unfold keyOf
  split <;> simp <;> omega

/-- One count down never goes below zero (60_exceptions.md R191). -/
theorem countDown_toNat (b : Byte) : (countDown b).toNat = b.toNat - 1 := by
  unfold countDown
  split
  · subst b; rfl
  · rename_i hb
    have : b.toNat ≠ 0 := fun h0 => hb (BitVec.eq_of_toNat_eq (by simpa using h0))
    have := b.isLt
    rw [BitVec.toNat_sub]; simp; omega

/-! ### Registers in a row -/

variable (s : State)

theorem State.regsTo_length (x : Reg) : (s.regsTo x).length = x.val + 1 := by
  simp [State.regsTo]

theorem State.regsTo_getElem (x : Reg) (k : Nat) (h : k < (s.regsTo x).length) :
    (s.regsTo x)[k] = s.reg ⟨k, by rw [State.regsTo_length] at h; omega⟩ := by
  simp [State.regsTo, State.reg]

/-! ### What the shared operations leave alone -/

/-- A store changes memory and nothing else, not the PC either. -/
theorem State.memWrite_only {s t : State} {a : Nat} {bs : List Byte} (h : s.memWrite a bs = some t) :
    OnlyChanges [.memory] s t ∧ SameOutside s t ∧ t.pc = s.pc ∧ t.v = s.v ∧ t.fault = s.fault := by
  obtain ⟨-, rfl⟩ := State.memWrite_eq_some a s h
  simp [OnlyChanges, SameOutside, State.reg]

/-- Taking a fault changes FAULT and the event and nothing else (60_exceptions.md R184). -/
theorem State.raise_only (k : FaultKind) (w : Word) :
    OnlyChanges [.fault] s (s.raise k w) ∧ (s.raise k w).pc = s.pc ∧ (s.raise k w).env = s.env ∧
      (s.raise k w).fault = some { kind := k, fpc := s.pc, fword := w } ∧ (s.raise k w).event = .faulted k := by
  simp [OnlyChanges]

/-- A jump changes the PC and nothing else. -/
theorem State.withPc_only (p : Word) : OnlyChanges [] s (s.withPc p) ∧ SameOutside s (s.withPc p) := by
  simp [OnlyChanges, SameOutside]

/-- A push writes one stack slot and SP. -/
theorem State.pushPc_only : OnlyChanges [.stack] s s.pushPc ∧ SameOutside s s.pushPc ∧ s.pushPc.pc = s.pc := by
  simp [OnlyChanges, SameOutside]

/-- A pop writes the PC and SP, and no slot. -/
theorem State.popPc_only :
    OnlyChanges [.stack] s s.popPc ∧ SameOutside s s.popPc ∧ s.popPc.pc = s.stack[s.sp] ∧ s.popPc.stack = s.stack := by
  simp [OnlyChanges, SameOutside]

/-- A Tick writes the timers and nothing else, and a halted machine's not even those (60_exceptions.md R191). -/
theorem State.tick_only : OnlyChanges [.delay, .sound] s s.tick ∧ SameOutside s s.tick ∧ s.tick.pc = s.pc := by
  simp [OnlyChanges, SameOutside]

end Sys2Proof.Machine
end

