-- ==== Sys2Proof/Laws/PerInstr.lean ====
section
/-! SUPPORT. Facts about every instruction as syntax, one lemma per constructor. -/

namespace Sys2Proof.Laws.RowSelects

/-- Which row of the opcode map (30_encoding.md R74, numbered from 0) is the instruction's. -/
def rowNumber : Instr → Nat
  | .cls => 0
  | .ret => 1
  | .jp _ => 2
  | .call _ => 3
  | .seImm _ _ => 4
  | .sneImm _ _ => 5
  | .seReg _ _ => 6
  | .ldImm _ _ => 7
  | .addImm _ _ => 8
  | .ldReg _ _ => 9
  | .orReg _ _ => 10
  | .andReg _ _ => 11
  | .xorReg _ _ => 12
  | .addReg _ _ => 13
  | .sub _ _ => 14
  | .shr _ _ => 15
  | .subn _ _ => 16
  | .shl _ _ => 17
  | .sneReg _ _ => 18
  | .ldI _ => 19
  | .jpV0 _ => 20
  | .rnd _ _ => 21
  | .drw _ _ _ => 22
  | .skp _ => 23
  | .sknp _ => 24
  | .ldVxDt _ => 25
  | .ldVxK _ => 26
  | .ldDtVx _ => 27
  | .ldStVx _ => 28
  | .addI _ => 29
  | .ldF _ => 30
  | .ldB _ => 31
  | .ldMemVx _ => 32
  | .ldVxMem _ => 33

/-- The word the encoder gives an instruction is selected by that instruction's own row of the opcode map. -/
def Statement (i : Instr) : Prop :=
  ∃ r, opcodeTable[rowNumber i]? = some r ∧ r.selects (encode i) = true

theorem cls : Statement (.cls) :=
  ⟨_, rfl, by decide⟩

theorem ret : Statement (.ret) :=
  ⟨_, rfl, by decide⟩

theorem jp (nnn : Addr) : Statement (.jp nnn) :=
  ⟨_, rfl, Row.selects_F000 (by
    have := nnn.isLt
    rw [encode, wordNNN_toNat (op := 1) (by omega) nnn.isLt]
    simp only [BitVec.toNat_ofNat, BitVec.ofNat_eq_ofNat]; omega)⟩

theorem call (nnn : Addr) : Statement (.call nnn) :=
  ⟨_, rfl, Row.selects_F000 (by
    have := nnn.isLt
    rw [encode, wordNNN_toNat (op := 2) (by omega) nnn.isLt]
    simp only [BitVec.toNat_ofNat, BitVec.ofNat_eq_ofNat]; omega)⟩

theorem seImm (x : Reg) (nn : Byte) : Statement (.seImm x nn) :=
  ⟨_, rfl, Row.selects_F000 (by
    have := x.isLt; have := nn.isLt
    rw [encode, wordXNN_toNat (op := 3) (by omega) x.isLt nn.isLt]
    simp only [BitVec.toNat_ofNat, BitVec.ofNat_eq_ofNat]; omega)⟩

theorem sneImm (x : Reg) (nn : Byte) : Statement (.sneImm x nn) :=
  ⟨_, rfl, Row.selects_F000 (by
    have := x.isLt; have := nn.isLt
    rw [encode, wordXNN_toNat (op := 4) (by omega) x.isLt nn.isLt]
    simp only [BitVec.toNat_ofNat, BitVec.ofNat_eq_ofNat]; omega)⟩

theorem seReg (x : Reg) (y : Reg) : Statement (.seReg x y) :=
  ⟨_, rfl, Row.selects_F00F (by
    have := x.isLt; have := y.isLt
    rw [encode, wordXYN_toNat (op := 5) (n := 0) (by omega) x.isLt y.isLt (by omega)]
    simp only [BitVec.toNat_ofNat, BitVec.ofNat_eq_ofNat]; omega)⟩

theorem ldImm (x : Reg) (nn : Byte) : Statement (.ldImm x nn) :=
  ⟨_, rfl, Row.selects_F000 (by
    have := x.isLt; have := nn.isLt
    rw [encode, wordXNN_toNat (op := 6) (by omega) x.isLt nn.isLt]
    simp only [BitVec.toNat_ofNat, BitVec.ofNat_eq_ofNat]; omega)⟩

theorem addImm (x : Reg) (nn : Byte) : Statement (.addImm x nn) :=
  ⟨_, rfl, Row.selects_F000 (by
    have := x.isLt; have := nn.isLt
    rw [encode, wordXNN_toNat (op := 7) (by omega) x.isLt nn.isLt]
    simp only [BitVec.toNat_ofNat, BitVec.ofNat_eq_ofNat]; omega)⟩

theorem ldReg (x : Reg) (y : Reg) : Statement (.ldReg x y) :=
  ⟨_, rfl, Row.selects_F00F (by
    have := x.isLt; have := y.isLt
    rw [encode, wordXYN_toNat (op := 8) (n := 0) (by omega) x.isLt y.isLt (by omega)]
    simp only [BitVec.toNat_ofNat, BitVec.ofNat_eq_ofNat]; omega)⟩

theorem orReg (x : Reg) (y : Reg) : Statement (.orReg x y) :=
  ⟨_, rfl, Row.selects_F00F (by
    have := x.isLt; have := y.isLt
    rw [encode, wordXYN_toNat (op := 8) (n := 1) (by omega) x.isLt y.isLt (by omega)]
    simp only [BitVec.toNat_ofNat, BitVec.ofNat_eq_ofNat]; omega)⟩

theorem andReg (x : Reg) (y : Reg) : Statement (.andReg x y) :=
  ⟨_, rfl, Row.selects_F00F (by
    have := x.isLt; have := y.isLt
    rw [encode, wordXYN_toNat (op := 8) (n := 2) (by omega) x.isLt y.isLt (by omega)]
    simp only [BitVec.toNat_ofNat, BitVec.ofNat_eq_ofNat]; omega)⟩

theorem xorReg (x : Reg) (y : Reg) : Statement (.xorReg x y) :=
  ⟨_, rfl, Row.selects_F00F (by
    have := x.isLt; have := y.isLt
    rw [encode, wordXYN_toNat (op := 8) (n := 3) (by omega) x.isLt y.isLt (by omega)]
    simp only [BitVec.toNat_ofNat, BitVec.ofNat_eq_ofNat]; omega)⟩

theorem addReg (x : Reg) (y : Reg) : Statement (.addReg x y) :=
  ⟨_, rfl, Row.selects_F00F (by
    have := x.isLt; have := y.isLt
    rw [encode, wordXYN_toNat (op := 8) (n := 4) (by omega) x.isLt y.isLt (by omega)]
    simp only [BitVec.toNat_ofNat, BitVec.ofNat_eq_ofNat]; omega)⟩

theorem sub (x : Reg) (y : Reg) : Statement (.sub x y) :=
  ⟨_, rfl, Row.selects_F00F (by
    have := x.isLt; have := y.isLt
    rw [encode, wordXYN_toNat (op := 8) (n := 5) (by omega) x.isLt y.isLt (by omega)]
    simp only [BitVec.toNat_ofNat, BitVec.ofNat_eq_ofNat]; omega)⟩

theorem shr (x : Reg) (y : Reg) : Statement (.shr x y) :=
  ⟨_, rfl, Row.selects_F00F (by
    have := x.isLt; have := y.isLt
    rw [encode, wordXYN_toNat (op := 8) (n := 6) (by omega) x.isLt y.isLt (by omega)]
    simp only [BitVec.toNat_ofNat, BitVec.ofNat_eq_ofNat]; omega)⟩

theorem subn (x : Reg) (y : Reg) : Statement (.subn x y) :=
  ⟨_, rfl, Row.selects_F00F (by
    have := x.isLt; have := y.isLt
    rw [encode, wordXYN_toNat (op := 8) (n := 7) (by omega) x.isLt y.isLt (by omega)]
    simp only [BitVec.toNat_ofNat, BitVec.ofNat_eq_ofNat]; omega)⟩

theorem shl (x : Reg) (y : Reg) : Statement (.shl x y) :=
  ⟨_, rfl, Row.selects_F00F (by
    have := x.isLt; have := y.isLt
    rw [encode, wordXYN_toNat (op := 8) (n := 14) (by omega) x.isLt y.isLt (by omega)]
    simp only [BitVec.toNat_ofNat, BitVec.ofNat_eq_ofNat]; omega)⟩

theorem sneReg (x : Reg) (y : Reg) : Statement (.sneReg x y) :=
  ⟨_, rfl, Row.selects_F00F (by
    have := x.isLt; have := y.isLt
    rw [encode, wordXYN_toNat (op := 9) (n := 0) (by omega) x.isLt y.isLt (by omega)]
    simp only [BitVec.toNat_ofNat, BitVec.ofNat_eq_ofNat]; omega)⟩

theorem ldI (nnn : Addr) : Statement (.ldI nnn) :=
  ⟨_, rfl, Row.selects_F000 (by
    have := nnn.isLt
    rw [encode, wordNNN_toNat (op := 10) (by omega) nnn.isLt]
    simp only [BitVec.toNat_ofNat, BitVec.ofNat_eq_ofNat]; omega)⟩

theorem jpV0 (nnn : Addr) : Statement (.jpV0 nnn) :=
  ⟨_, rfl, Row.selects_F000 (by
    have := nnn.isLt
    rw [encode, wordNNN_toNat (op := 11) (by omega) nnn.isLt]
    simp only [BitVec.toNat_ofNat, BitVec.ofNat_eq_ofNat]; omega)⟩

theorem rnd (x : Reg) (nn : Byte) : Statement (.rnd x nn) :=
  ⟨_, rfl, Row.selects_F000 (by
    have := x.isLt; have := nn.isLt
    rw [encode, wordXNN_toNat (op := 12) (by omega) x.isLt nn.isLt]
    simp only [BitVec.toNat_ofNat, BitVec.ofNat_eq_ofNat]; omega)⟩

theorem drw (x : Reg) (y : Reg) (n : Fin 16) : Statement (.drw x y n) :=
  ⟨_, rfl, Row.selects_F000 (by
    have := x.isLt; have := y.isLt; have := n.isLt
    rw [encode, wordXYN_toNat (op := 13) (by omega) x.isLt y.isLt n.isLt]
    simp only [BitVec.toNat_ofNat, BitVec.ofNat_eq_ofNat]; omega)⟩

theorem skp (x : Reg) : Statement (.skp x) :=
  ⟨_, rfl, Row.selects_F0FF (by
    have := x.isLt
    rw [encode, wordXNN_toNat (op := 14) (nn := 158) (by omega) x.isLt (by omega)]
    simp only [BitVec.toNat_ofNat, BitVec.ofNat_eq_ofNat]; omega)⟩

theorem sknp (x : Reg) : Statement (.sknp x) :=
  ⟨_, rfl, Row.selects_F0FF (by
    have := x.isLt
    rw [encode, wordXNN_toNat (op := 14) (nn := 161) (by omega) x.isLt (by omega)]
    simp only [BitVec.toNat_ofNat, BitVec.ofNat_eq_ofNat]; omega)⟩

theorem ldVxDt (x : Reg) : Statement (.ldVxDt x) :=
  ⟨_, rfl, Row.selects_F0FF (by
    have := x.isLt
    rw [encode, wordXNN_toNat (op := 15) (nn := 7) (by omega) x.isLt (by omega)]
    simp only [BitVec.toNat_ofNat, BitVec.ofNat_eq_ofNat]; omega)⟩

theorem ldVxK (x : Reg) : Statement (.ldVxK x) :=
  ⟨_, rfl, Row.selects_F0FF (by
    have := x.isLt
    rw [encode, wordXNN_toNat (op := 15) (nn := 10) (by omega) x.isLt (by omega)]
    simp only [BitVec.toNat_ofNat, BitVec.ofNat_eq_ofNat]; omega)⟩

theorem ldDtVx (x : Reg) : Statement (.ldDtVx x) :=
  ⟨_, rfl, Row.selects_F0FF (by
    have := x.isLt
    rw [encode, wordXNN_toNat (op := 15) (nn := 21) (by omega) x.isLt (by omega)]
    simp only [BitVec.toNat_ofNat, BitVec.ofNat_eq_ofNat]; omega)⟩

theorem ldStVx (x : Reg) : Statement (.ldStVx x) :=
  ⟨_, rfl, Row.selects_F0FF (by
    have := x.isLt
    rw [encode, wordXNN_toNat (op := 15) (nn := 24) (by omega) x.isLt (by omega)]
    simp only [BitVec.toNat_ofNat, BitVec.ofNat_eq_ofNat]; omega)⟩

theorem addI (x : Reg) : Statement (.addI x) :=
  ⟨_, rfl, Row.selects_F0FF (by
    have := x.isLt
    rw [encode, wordXNN_toNat (op := 15) (nn := 30) (by omega) x.isLt (by omega)]
    simp only [BitVec.toNat_ofNat, BitVec.ofNat_eq_ofNat]; omega)⟩

theorem ldF (x : Reg) : Statement (.ldF x) :=
  ⟨_, rfl, Row.selects_F0FF (by
    have := x.isLt
    rw [encode, wordXNN_toNat (op := 15) (nn := 41) (by omega) x.isLt (by omega)]
    simp only [BitVec.toNat_ofNat, BitVec.ofNat_eq_ofNat]; omega)⟩

theorem ldB (x : Reg) : Statement (.ldB x) :=
  ⟨_, rfl, Row.selects_F0FF (by
    have := x.isLt
    rw [encode, wordXNN_toNat (op := 15) (nn := 51) (by omega) x.isLt (by omega)]
    simp only [BitVec.toNat_ofNat, BitVec.ofNat_eq_ofNat]; omega)⟩

theorem ldMemVx (x : Reg) : Statement (.ldMemVx x) :=
  ⟨_, rfl, Row.selects_F0FF (by
    have := x.isLt
    rw [encode, wordXNN_toNat (op := 15) (nn := 85) (by omega) x.isLt (by omega)]
    simp only [BitVec.toNat_ofNat, BitVec.ofNat_eq_ofNat]; omega)⟩

theorem ldVxMem (x : Reg) : Statement (.ldVxMem x) :=
  ⟨_, rfl, Row.selects_F0FF (by
    have := x.isLt
    rw [encode, wordXNN_toNat (op := 15) (nn := 101) (by omega) x.isLt (by omega)]
    simp only [BitVec.toNat_ofNat, BitVec.ofNat_eq_ofNat]; omega)⟩

end Sys2Proof.Laws.RowSelects
end

