-- ==== Sys2Proof/Laws/Step.lean ====
section
/-! SUPPORT. What a transition can be: one case analysis for the Step, one for the whole transition. -/

namespace Sys2Proof.Machine

variable (s : State)

/-- Decoding the two fetched bytes is decoding the fetched word. -/
theorem State.decode_fetchBytes : decode s.fetchBytes =
    match decodeWord s.fetchWord with
    | some i => .ok (i, [])
    | none => .error (.unimplemented s.fetchWord) := rfl

/-- A Step, whole (40_cycle.md R90): halted; a faulting fetch; an instruction; an unimplemented word. -/
theorem State.engineStep_cases :
    (s.fault ≠ none ∧ s.engineStep = .next s) ∨
    (s.fault = none ∧ pcFaults s.cfg.strictPc s.pc = true ∧ s.engineStep = .next (s.raise .pcOutOfRange 0)) ∨
    (∃ i, s.At i ∧ s.engineStep = exec i s) ∨
    (s.fault = none ∧ s.Fetchable ∧ decodeWord s.fetchWord = none ∧
      s.engineStep = .next (s.unimplemented s.fetchWord)) := by
  unfold State.engineStep
  by_cases hh : s.halted = true
  · exact .inl ⟨by simpa using hh, if_pos hh⟩
  · have hf : s.fault = none := by simpa using hh
    rw [if_neg hh]
    by_cases hp : pcFaults s.cfg.strictPc s.pc = true
    · exact .inr (.inl ⟨hf, hp, if_pos hp⟩)
    · have hp' : s.Fetchable := by simpa [State.Fetchable] using hp
      rw [if_neg hp, State.decode_fetchBytes]
      cases hd : decodeWord s.fetchWord with
      | some i => exact .inr (.inr (.inl ⟨i, ⟨hf, hp', hd⟩, rfl⟩))
      | none => exact .inr (.inr (.inr ⟨hf, hp', rfl, rfl⟩))

/-! ### Whose turn it is -/

/-- A pending strobe is the next one, and taking it leaves the others. -/
theorem State.strobe_of_script {x : Input} {rest : List Input} (h : s.env.script = x :: rest) :
    s.strobe = x ∧ s.env.afterStrobe = { s.env with script := rest } := by
  simp [State.strobe, Env.afterStrobe, h]

/-- Past the script's end the next strobe is a free one, and the one after it is another. -/
theorem State.strobe_of_script_nil (h : s.env.script = []) :
    s.strobe = Config.freeStrobe s.env.drawn ∧ s.env.afterStrobe = { s.env with drawn := s.env.drawn + 1 } := by
  simp [State.strobe, Env.afterStrobe, h]

/-- The engine's turn, whichever draws it finds. -/
theorem step_of_stepBegins {s s' : State} (h : StepBegins s s') : step s = s'.engineStep := by
  obtain ⟨d, hs, rfl⟩ := h
  have : s.transition = (s.beginStep d).engineStep := by unfold State.transition; rw [hs]
  exact this

/-- Nothing of the block has changed when a Step begins. -/
theorem StepBegins.keeps {s s' : State} (h : StepBegins s s') :
    s' = { s with env := s'.env, event := .noEvent } := by
  obtain ⟨d, -, rfl⟩ := h; rfl

/-- A transition, whole (10_state.md R25): a Step, a Tick, or a Reset. -/
theorem step_cases :
    (∃ s', StepBegins s s' ∧ step s = s'.engineStep) ∨
    (s.strobe = .tick ∧ step s = .next s.accept.tick) ∨
    (∃ rom, s.strobe = .reset rom ∧ step s = s.accept.load rom) := by
  cases hs : s.strobe with
  | step d => exact .inl ⟨s.beginStep d, ⟨d, hs, rfl⟩, step_of_stepBegins ⟨d, hs, rfl⟩⟩
  | tick => exact .inr (.inl ⟨rfl, by simp only [step, State.transition, hs]⟩)
  | reset rom => exact .inr (.inr ⟨rom, rfl, by simp only [step, State.transition, hs]⟩)

/-- Reset, whole (70_reset_and_hazards.md R200, R201). -/
theorem State.load_cases (rom : List Byte) :
    (rom.length ≤ 3584 ∧ s.load rom = .next { State.reset with
      mem := Memory.writeList s.cfg.fontRom [] 0x200 rom, cfg := s.cfg, env := s.env }) ∨
    (3584 < rom.length ∧ s.load rom = .fault .romTooLarge) := by
  by_cases h : rom.length ≤ 3584
  · exact .inl ⟨h, if_pos (decide_eq_true h)⟩
  · exact .inr ⟨by omega, if_neg (by unfold romFits romMax; simp; omega)⟩

end Sys2Proof.Machine
end

