-- ==== Sys2Proof/Tests/Slice0.lean ====
section
/-! SUPPORT. Tests against the worked values of the spec (95_test_vectors.md; the id of a vector stands before its
test), the smoke test of what is refused, and for every obligation with hypotheses a case that meets them. -/

namespace Sys2Proof.Tests

open Sys2Proof.Machine

/-! ## Helpers -/

/-- No key down, none reported, a zero random byte. -/
def noKeys : Draws := { keyDown := Vector.replicate 16 false, lastKey := none, rand := 0 }

/-- The machine of the vectors: after reset, a word at 0x200, and the draws of its one Step. -/
def machine (w : Nat) (d : Draws := noKeys) : State :=
  { State.reset with env := { State.reset.env with script := [.step d] } }.withFetchWord 16 w

/-- The same with general registers set. -/
def withRegs (s : State) (l : List (Reg × Byte)) : State := l.foldl (fun s p => s.setReg p.1 p.2) s

/-- The same with bytes stored from an address, and I at that address. -/
def withData (s : State) (a : Nat) (bs : List Byte) : State :=
  { s with mem := Memory.writeList s.cfg.fontRom s.mem a bs, i := BitVec.ofNat 16 a }

/-- Keys pressed and reported, and a random byte. -/
def draws (down : List (Fin 16)) (last : Option (Fin 16)) (rand : Byte) : Draws :=
  { keyDown := Vector.ofFn fun k => decide (k ∈ down), lastKey := last, rand := rand }

/-- The machine whose next transition is the given strobe. -/
def next (i : Input) (s : State) : State := { s with env := { s.env with script := [i] } }

/-- Does one transition lead to a next state as described? -/
def holds (s : State) (p : State → Bool) : Bool :=
  match step s with
  | .next t => p t
  | .fault _ => false
  | .refused _ => false

/-- Does one transition change nothing of the block but FAULT, which it sets to this? -/
def faults (s : State) (k : FaultKind) (fpc fword : Word) : Bool :=
  holds s fun t => t == { s with
    fault := some { kind := k, fpc := fpc, fword := fword }, event := .faulted k, env := t.env }

/-- The pixel in column x, row y. -/
def pixel (s : State) (x : Fin 64) (y : Fin 32) : Bool := s.disp[y][x]

/-! ## Decoding: the words of R74 written out bit by bit (30_encoding.md R71, R74) -/

theorem test_decode_display :
    decodeWord 0b0000_0000_1110_0000 = some .cls ∧
    decodeWord 0b1101_0001_0010_1111 = some (.drw 1 2 15) := by decide

theorem test_decode_flow :
    decodeWord 0b0000_0000_1110_1110 = some .ret ∧
    decodeWord 0b0001_1010_1011_1100 = some (.jp 0xABC) ∧
    decodeWord 0b0010_0100_0000_0001 = some (.call 0x401) ∧
    decodeWord 0b1011_0101_0000_0010 = some (.jpV0 0x502) := by decide

theorem test_decode_skip :
    decodeWord 0b0011_0011_0001_0010 = some (.seImm 3 0x12) ∧
    decodeWord 0b0100_0011_1001_0010 = some (.sneImm 3 0x92) ∧
    decodeWord 0b0101_0001_0010_0000 = some (.seReg 1 2) ∧
    decodeWord 0b1001_0001_0010_0000 = some (.sneReg 1 2) ∧
    decodeWord 0b1110_0101_1001_1110 = some (.skp 5) ∧
    decodeWord 0b1110_0101_1010_0001 = some (.sknp 5) := by decide

theorem test_decode_alu_immediate :
    decodeWord 0b0110_1010_0111_1011 = some (.ldImm 10 0x7B) ∧
    decodeWord 0b0111_1111_0000_0001 = some (.addImm 15 0x01) ∧
    decodeWord 0b1100_0011_0000_1111 = some (.rnd 3 0x0F) := by decide

theorem test_decode_alu_register :
    decodeWord 0b1000_0001_0010_0000 = some (.ldReg 1 2) ∧
    decodeWord 0b1000_0001_0010_0001 = some (.orReg 1 2) ∧
    decodeWord 0b1000_0001_0010_0010 = some (.andReg 1 2) ∧
    decodeWord 0b1000_0001_0010_0011 = some (.xorReg 1 2) ∧
    decodeWord 0b1000_0001_0010_0100 = some (.addReg 1 2) ∧
    decodeWord 0b1000_0001_0010_0101 = some (.sub 1 2) ∧
    decodeWord 0b1000_0001_0010_0110 = some (.shr 1 2) ∧
    decodeWord 0b1000_0001_0010_0111 = some (.subn 1 2) ∧
    decodeWord 0b1000_0001_0010_1110 = some (.shl 1 2) := by decide

theorem test_decode_index_memory :
    decodeWord 0b1010_0001_0010_0011 = some (.ldI 0x123) ∧
    decodeWord 0b1111_0010_0001_1110 = some (.addI 2) ∧
    decodeWord 0b1111_0010_0010_1001 = some (.ldF 2) ∧
    decodeWord 0b1111_1010_0011_0011 = some (.ldB 10) ∧
    decodeWord 0b1111_1111_0101_0101 = some (.ldMemVx 15) ∧
    decodeWord 0b1111_1111_0110_0101 = some (.ldVxMem 15) := by decide

theorem test_decode_timer_key :
    decodeWord 0b1111_0100_0000_0111 = some (.ldVxDt 4) ∧
    decodeWord 0b1111_0011_0000_1010 = some (.ldVxK 3) ∧
    decodeWord 0b1111_0001_0001_0101 = some (.ldDtVx 1) ∧
    decodeWord 0b1111_0001_0001_1000 = some (.ldStVx 1) := by decide

/-- E3 to E10: words that match no row. -/
theorem test_decode_unimplemented :
    [0x0000, 0x01E0, 0x00EF, 0x5121, 0x9AB3, 0x8018, 0xE000, 0xF0FF, 0x0123].all
      (fun w => decodeWord w == none) = true := by decide

/-- R53: the byte at the lower address is the high one. -/
theorem test_decode_bytes :
    decode [0x12, 0x34, 0x99] = .ok (.jp 0x234, [0x99]) ∧ decode [0x12] = .error .truncated ∧
    decode [0xF0, 0xFF] = .error (.unimplemented 0xF0FF) ∧ decodeTableWord 16 0xD12F = some (.drw 1 2 15) := by decide

/-- W1: the fields of 0xD12F. -/
theorem test_fields : fields 0xD12F = { op := 0xD, x := 1, y := 2, n := 15, nn := 0x2F, nnn := 0x12F } := by decide

/-! ## What is refused (WellFormed.lean, Memory.wf) -/

/-- W9, R2, R3: 3584 bytes fit, 3585 do not, and Reset says so. -/
theorem smoke_rom_too_long :
    romFits (List.replicate 3584 0) = true ∧ romFits (List.replicate 3585 0) = false := by
  simp only [romFits, romMax, List.length_replicate]; decide

/-- Memory out of order, an entry that says what is there anyway (a zero, a font byte), an address past the end. -/
theorem smoke_memory_ill_formed :
    Memory.wf defaultFontRom [(0x301, 1), (0x300, 1)] = false ∧ Memory.wf defaultFontRom [(0x300, 0)] = false ∧
    Memory.wf defaultFontRom [(0x050, 0xF0)] = false ∧ Memory.wf defaultFontRom [(0x1000, 1)] = false ∧
    Memory.wf defaultFontRom [(0x050, 0), (0xFFF, 1)] = true := by decide

/-! ## One Step per instruction (95_test_vectors.md Part 2) -/

/-- D11. -/
theorem test_CLS : holds { machine 0x00E0 with disp := Vector.replicate 32 (Vector.replicate 64 true) }
    (fun t => !pixel t 0 0 && !pixel t 63 31 && t.reg 15 == 0 && t.pc == 0x202) = true := by decide

/-- D7: clipped at the right edge. -/
theorem test_DRW_clipped : holds (withRegs (withData (machine 0xD011) 0x300 [0xFF]) [(0, 0x3C)])
    (fun t => !pixel t 59 0 && pixel t 60 0 && pixel t 63 0 && !pixel t 0 0 && !pixel t 0 1 && t.reg 15 == 0 && t.pc == 0x202) = true := by decide

/-- D3: the coordinates are read before VF is written. -/
theorem test_DRW_vf : holds (withRegs (withData (machine 0xDFF1) 0x300 [0xC0]) [(15, 3)])
    (fun t => !pixel t 2 3 && pixel t 3 3 && pixel t 4 3 && !pixel t 5 3 && !pixel t 3 4 && t.reg 15 == 0) = true := by decide

/-- F5. -/
theorem test_RET : holds { machine 0x00EE with sp := 2, stack := (Vector.replicate 16 0).set 2 0x35A }
    (fun t => t.pc == 0x35A && t.sp == 1 && t.stack[2] == 0x35A) = true := by decide

/-- F1. -/
theorem test_JP : holds (machine 0x1ABC) (fun t => t.pc == 0xABC && t.sp == 0) = true := by decide

/-- F3. -/
theorem test_CALL : holds (machine 0x2400) (fun t => t.sp == 1 && t.stack[1] == 0x202 && t.pc == 0x400) = true := by decide

/-- F10: V5 is not read. -/
theorem test_JP_V0 : holds (withRegs (machine 0xB500) [(5, 0x10)]) (fun t => t.pc == 0x500) = true := by decide

/-- F8: no wrap. -/
theorem test_JP_V0_high : holds (withRegs (machine 0xBFFF) [(0, 0xFF)]) (fun t => t.pc == 0x10FE) = true := by decide

/-- S1, S2. -/
theorem test_SE_imm : holds (withRegs (machine 0x3312) [(3, 0x12)]) (fun t => t.pc == 0x204) = true ∧
    holds (withRegs (machine 0x3312) [(3, 0x13)]) (fun t => t.pc == 0x202) = true := by decide

/-- S3, S4. -/
theorem test_SNE_imm : holds (withRegs (machine 0x4312) [(3, 0x13)]) (fun t => t.pc == 0x204) = true ∧
    holds (withRegs (machine 0x4312) [(3, 0x12)]) (fun t => t.pc == 0x202) = true := by decide

/-- S5, S6. -/
theorem test_SE_reg : holds (withRegs (machine 0x5120) [(1, 0x7F), (2, 0x7F)]) (fun t => t.pc == 0x204) = true ∧
    holds (withRegs (machine 0x5120) [(1, 0x7F), (2, 0x80)]) (fun t => t.pc == 0x202) = true := by decide

/-- S7, S8. -/
theorem test_SNE_reg : holds (withRegs (machine 0x9120) [(1, 0x7F), (2, 0x80)]) (fun t => t.pc == 0x204) = true ∧
    holds (machine 0x9110) (fun t => t.pc == 0x202) = true := by decide

/-- S9, S10. -/
theorem test_SKP : holds (withRegs (machine 0xE09E (draws [5] none 0)) [(0, 5)]) (fun t => t.pc == 0x204) = true ∧
    holds (withRegs (machine 0xE09E) [(0, 5)]) (fun t => t.pc == 0x202) = true := by decide

/-- S11, S12. -/
theorem test_SKNP : holds (withRegs (machine 0xE0A1) [(0, 5)]) (fun t => t.pc == 0x204) = true ∧
    holds (withRegs (machine 0xE0A1 (draws [5] none 0)) [(0, 5)]) (fun t => t.pc == 0x202) = true := by decide

/-- A1. -/
theorem test_LD_imm : holds (machine 0x6A7B) (fun t => t.reg 10 == 0x7B && t.pc == 0x202) = true := by decide

/-- A2: wraps, and no flag. -/
theorem test_ADD_imm : holds (withRegs (machine 0x70FF) [(0, 2), (15, 0x55)])
    (fun t => t.reg 0 == 1 && t.reg 15 == 0x55) = true := by decide

/-- A4. -/
theorem test_LD_reg : holds (withRegs (machine 0x8010) [(1, 0x9C)])
    (fun t => t.reg 0 == 0x9C && t.reg 1 == 0x9C) = true := by decide

/-- A5: VF is not reset. -/
theorem test_OR : holds (withRegs (machine 0x8011) [(0, 0x0F), (1, 0xF0), (15, 7)])
    (fun t => t.reg 0 == 0xFF && t.reg 15 == 7) = true := by decide

/-- A6. -/
theorem test_AND : holds (withRegs (machine 0x8122) [(1, 0x3C), (2, 0x0F)]) (fun t => t.reg 1 == 0x0C) = true := by decide

/-- A8: VF as an ordinary destination. -/
theorem test_XOR : holds (withRegs (machine 0x8F13) [(15, 0xAA), (1, 0x55)]) (fun t => t.reg 15 == 0xFF) = true := by decide

/-- A9, A11: the flag stands in VF. -/
theorem test_ADD_reg : holds (withRegs (machine 0x8014) [(0, 0x80), (1, 0x7F), (15, 9)])
      (fun t => t.reg 0 == 0xFF && t.reg 15 == 0) = true ∧
    holds (withRegs (machine 0x8FF4) [(15, 0x80)]) (fun t => t.reg 15 == 1) = true := by decide

/-- W6, A12. -/
theorem test_SUB : holds (withRegs (machine 0x8015) [(0, 1), (1, 2), (15, 9)])
      (fun t => t.reg 0 == 0xFF && t.reg 15 == 0) = true ∧
    holds (withRegs (machine 0x8015) [(0, 5), (1, 5)]) (fun t => t.reg 0 == 0 && t.reg 15 == 1) = true := by decide

/-- A15, A16: V1 is not read. -/
theorem test_SHR : holds (withRegs (machine 0x8016) [(0, 0xFF)]) (fun t => t.reg 0 == 0x7F && t.reg 15 == 1) = true ∧
    holds (withRegs (machine 0x8F06) [(15, 3)]) (fun t => t.reg 15 == 1) = true := by decide

/-- A17, A18. -/
theorem test_SUBN : holds (withRegs (machine 0x8017) [(0, 2), (1, 1), (15, 9)])
      (fun t => t.reg 0 == 0xFF && t.reg 15 == 0) = true ∧
    holds (withRegs (machine 0x8017) [(0, 1), (1, 2)]) (fun t => t.reg 0 == 1 && t.reg 15 == 1) = true := by decide

/-- A19, A22: V1 is not read. -/
theorem test_SHL : holds (withRegs (machine 0x801E) [(0, 0x81)]) (fun t => t.reg 0 == 2 && t.reg 15 == 1) = true ∧
    holds (withRegs (machine 0x8F1E) [(15, 1), (1, 0xFF)]) (fun t => t.reg 15 == 0) = true := by decide

/-- A23. -/
theorem test_RND : holds (machine 0xC30F (draws [] none 0xAB)) (fun t => t.reg 3 == 0x0B) = true := by decide

/-- M1. -/
theorem test_LD_I : holds (machine 0xA123) (fun t => t.i == 0x123 && t.pc == 0x202) = true := by decide

/-- M3, M4: no flag, and the wrap at 16 bits. -/
theorem test_ADD_I : holds (withRegs { machine 0xF01E with i := 0xFFF } [(0, 1)])
      (fun t => t.i == 0x1000 && t.reg 15 == 0) = true ∧
    holds (withRegs { machine 0xF01E with i := 0xFFFF } [(0, 1)]) (fun t => t.i == 0) = true := by decide

/-- M5, M7: not masked. -/
theorem test_LD_F : holds (withRegs (machine 0xF029) [(0, 0x0A)])
      (fun t => t.i == 0x082 && [0, 1, 2, 3, 4].map (fun k => t.readByte (0x082 + k)) == [0xF0, 0x90, 0xF0, 0x90, 0x90]) = true ∧
    holds (withRegs (machine 0xF029) [(0, 0xFF)]) (fun t => t.i == 0x54B) = true := by decide

/-- M8, M11: the last three bytes of memory. -/
theorem test_LD_B : holds (withRegs (withData (machine 0xF033) 0x300 []) [(0, 0xFF)])
      (fun t => [0, 1, 2].map (fun k => t.readByte (0x300 + k)) == [2, 5, 5] && t.i == 0x300) = true ∧
    holds (withRegs (withData (machine 0xF033) 0xFFD []) [(0, 1)])
      (fun t => [0, 1, 2].map (fun k => t.readByte (0xFFD + k)) == [0, 0, 1]) = true := by decide

/-- M13: one register. -/
theorem test_LD_MEM_VX : holds (withRegs (withData (machine 0xF055) 0x300 []) [(0, 0x42), (1, 0x99)])
    (fun t => t.readByte 0x300 == 0x42 && t.readByte 0x301 == 0 && t.i == 0x300) = true := by decide

/-- M16, and the registers above X. -/
theorem test_LD_VX_MEM : holds (withRegs (withData (machine 0xF165) 0x300 [0x10, 0x11, 0x12]) [(2, 0x77)])
    (fun t => t.reg 0 == 0x10 && t.reg 1 == 0x11 && t.reg 2 == 0x77 && t.i == 0x300) = true := by decide

/-- K1. -/
theorem test_LD_VX_DT : holds { machine 0xF407 with dt := 0x3C } (fun t => t.reg 4 == 0x3C && t.dt == 0x3C) = true := by decide

/-- K6, K7. -/
theorem test_LD_VX_K : holds (machine 0xF30A) (fun t => t.pc == 0x200 && t.reg 3 == 0) = true ∧
    holds (machine 0xFF0A (draws [] (some 15) 0)) (fun t => t.pc == 0x202 && t.reg 15 == 0x0F) = true := by decide

/-- K2. -/
theorem test_LD_DT_VX : holds { machine 0xF115 with dt := 9 } (fun t => t.dt == 0) = true := by decide

/-- K3, K5. -/
theorem test_LD_ST_VX : holds (withRegs (machine 0xF118) [(1, 2)]) (fun t => t.st == 2 && t.soundOn) = true ∧
    holds { machine 0xF018 with st := 5 } (fun t => t.st == 0 && !t.soundOn) = true := by decide

/-! ## Faults, the Step, the Tick, the Reset -/

/-- F4, F6. -/
theorem test_stack_faults : faults { machine 0x2400 with sp := 15 } .stackOverflow 0x200 0x2400 = true ∧
    faults (machine 0x00EE) .stackUnderflow 0x200 0x00EE = true := by decide

/-- D6, M12, M15. -/
theorem test_memory_faults : faults { machine 0xD01F with i := 0xFF2 } .memoryOutOfRange 0x200 0xD01F = true ∧
    faults (withRegs { machine 0xF033 with i := 0xFFE } [(0, 1)]) .memoryOutOfRange 0x200 0xF033 = true ∧
    faults { machine 0xFF55 with i := 0xFF1 } .memoryOutOfRange 0x200 0xFF55 = true ∧
    faults { machine 0xFF65 with i := 0xFF1 } .memoryOutOfRange 0x200 0xFF65 = true := by decide

/-- D4: nothing is read with N = 0. -/
theorem test_DRW_no_rows : holds (withRegs { machine 0xD010 with i := 0xFFFF } [(15, 1)])
    (fun t => !pixel t 0 0 && t.reg 15 == 0 && t.pc == 0x202) = true := by decide

/-- S13, S14. -/
theorem test_key_faults : faults (withRegs (machine 0xE09E) [(0, 0x10)]) .keyOutOfRange 0x200 0xE09E = true ∧
    faults (withRegs (machine 0xE0A1) [(0, 0xFF)]) .keyOutOfRange 0x200 0xE0A1 = true := by decide

/-- The machine of a vector at another PC, STRICT_PC as given. -/
def machineAt (pc : Word) (strict : Bool) : State :=
  next (.step noKeys) { State.reset with pc := pc, cfg := { State.reset.cfg with strictPc := strict } }

/-- C2, C4, C6, C7. -/
theorem test_fetch_faults : faults (machineAt 0x1000 true) .pcOutOfRange 0x1000 0 = true ∧
    faults (machineAt 0x201 true) .pcOutOfRange 0x201 0 = true ∧
    faults (machineAt 0x1FE true) .pcOutOfRange 0x1FE 0 = true ∧
    faults (machineAt 0xFFF false) .pcOutOfRange 0xFFF 0 = true := by decide

/-- C1, C5. -/
theorem test_fetch_edges :
    holds { withData (machineAt 0xFFE true) 0xFFE [0x12, 0x00] with i := 0 } (fun t => t.pc == 0x200) = true ∧
    holds { withData (machineAt 0x201 false) 0x201 [0x60, 0x11] with i := 0 }
      (fun t => t.pc == 0x203 && t.reg 0 == 0x11) = true := by decide

/-- E2, E7. -/
theorem test_unimplemented :
    holds (machine 0x0000) (fun t => t.pc == 0x202 && t.unimplPulse == some 0x0000 && t.fault == none) = true ∧
    holds (withRegs (machine 0x8018) [(0, 1)]) (fun t => t.pc == 0x202 && t.unimplPulse == some 0x8018 &&
      t.reg 0 == 1 && t.reg 15 == 0) = true := by decide

/-- A machine that has faulted (C8). -/
def halted : State :=
  { State.reset with fault := some { kind := .stackUnderflow, fpc := 0x200, fword := 0x00EE }, dt := 5 }

/-- C8, R6. -/
theorem test_halted :
    holds (next (.step noKeys) halted) (fun t => t == { halted with env := { halted.env with ports := noKeys } }) = true ∧
    holds (next .tick halted) (fun t => t == halted) = true ∧
    holds (next (.reset []) halted) (fun t => t == State.reset) = true := by decide

/-- K8, K9, K10. -/
theorem test_tick : holds (next .tick State.reset) (fun t => t.dt == 0 && t.st == 0) = true ∧
    holds (next .tick { State.reset with dt := 1 }) (fun t => t.dt == 0 && t.st == 0) = true ∧
    holds (next .tick { State.reset with dt := 0xFF, st := 3 }) (fun t => t.dt == 0xFE && t.st == 2) = true := by decide

/-- R1, R7: the font, zeros, and the ROM at 0x200. -/
theorem test_reset : holds (next (.reset [0x62, 0x3C]) State.reset) (fun t =>
    [0x04F, 0x050, 0x051, 0x054, 0x0A0, 0x1FF, 0x200, 0x201, 0x202, 0xFFF].map t.readByte ==
      [0x00, 0xF0, 0x90, 0xF0, 0x00, 0x00, 0x62, 0x3C, 0x00, 0x00] && t.pc == 0x200) = true := by decide

/-! ## Cases that meet the hypotheses of the obligations

A statement `∀ p ∈ [...]` over a written list of forms is the conjunction over that list; its forms are run above. -/

/-- The beginning of a vector's Step. -/
theorem machine_begins (w : Nat) (d : Draws) : StepBegins (machine w d) ((machine w d).beginStep d) :=
  ⟨d, rfl, rfl⟩

/-- The other way a Step begins: nothing pending, and the free strobe is the engine's. -/
theorem witness_StepBegins_free (d : Draws) (h : Config.freeStrobe 0 = .step d) :
    StepBegins State.reset (State.reset.beginStep d) := ⟨d, h, rfl⟩

theorem witness_EncodeUndoesDecode : decodeWord 0x8F1E = some (.shl 15 1) := by decide

theorem witness_EveryWordMatchesOneRowOrNone :
    (∃ r, opcodeTable[2]? = some r ∧ r.selects 0x1FFF = true) ∧
    ((∀ r ∈ opcodeTable, r.selects 0x0000 = false) ∧
      State.reset.Running ∧ State.reset.Fetchable ∧ State.reset.fetchWord = 0x0000) :=
  ⟨⟨_, rfl, rfl⟩, by decide, rfl, rfl, by decide⟩

theorem witness_StepRunsTheDecodedInstruction : StepBegins (machine 0x6A7B) ((machine 0x6A7B).beginStep noKeys) ∧
    (machine 0x6A7B).At (.ldImm 10 0x7B) := ⟨machine_begins _ _, rfl, rfl, by decide⟩

theorem witness_UnimplementedWordIsANoOp : StepBegins (machine 0x00EF) ((machine 0x00EF).beginStep noKeys) ∧
    (machine 0x00EF).Running ∧ (machine 0x00EF).Fetchable ∧ decodeWord (machine 0x00EF).fetchWord = none :=
  ⟨machine_begins _ _, rfl, rfl, by decide⟩

/-- Just above 0xFFE in any configuration; odd, and just below 0x200, under STRICT_PC. -/
theorem witness_FetchOutsideThePcInvariantFaults :
    ((machineAt 0xFFF false).Running ∧ 0xFFE < (machineAt 0xFFF false).pc.toNat) ∧
    ((machineAt 0x201 true).Running ∧ (machineAt 0x201 true).cfg.strictPc = true ∧
      (machineAt 0x201 true).pc.toNat % 2 = 1) ∧
    ((machineAt 0x1FE true).Running ∧ (machineAt 0x1FE true).cfg.strictPc = true ∧
      (machineAt 0x1FE true).pc.toNat < 0x200) :=
  ⟨⟨rfl, by decide⟩, ⟨rfl, rfl, by decide⟩, rfl, rfl, by decide⟩

/-- A fetch at the last address a word may have, and at an odd one without STRICT_PC, and then another fault: 00EE. -/
theorem witness_FetchInsideThePcInvariant :
    (holds (withData (machineAt 0xFFE true) 0xFFE [0x00, 0xEE]) fun t => t.fault.any fun f => f.kind != .pcOutOfRange) = true ∧
    (holds (withData (machineAt 0x001 false) 0x001 [0x00, 0xEE]) fun t => t.fault.any fun f => f.kind != .pcOutOfRange) = true := by
  decide

theorem witness_HaltedMachineStandsStillUntilReset : ¬ halted.Running ∧
    StepBegins (next (.step noKeys) halted) ((next (.step noKeys) halted).beginStep noKeys) ∧
    (next .tick halted).strobe = .tick ∧
    ∃ t, step (next (.reset []) halted) = .next t ∧ t.fault ≠ halted.fault :=
  ⟨by simp [State.Running, halted], ⟨noKeys, rfl, rfl⟩, rfl, _, rfl, by decide⟩

theorem witness_TickCountsBothTimersDown :
    (next .tick { State.reset with st := 1 }).strobe = .tick ∧ (next .tick { State.reset with st := 1 }).Running ∧
    (next .tick { State.reset with st := 1 }).st = 1 ∧
    (next .tick halted).strobe = .tick ∧ ¬ (next .tick halted).Running :=
  ⟨rfl, rfl, rfl, rfl, by simp [State.Running, next, halted]⟩

/-- The longest ROM that fits, and the shortest that does not. -/
theorem witness_ResetBuildsTheWholeBlock (s : State) : ∀ n ∈ [3584, 3585],
    (next (.reset (List.replicate n 0xFF)) s).strobe = .reset (List.replicate n 0xFF) ∧
    (List.replicate n (0xFF : Byte)).length = n := fun _ _ => ⟨rfl, List.length_replicate⟩

theorem witness_OutputPortsShowTheState (k : FaultKind) (s : State) :
    ∃ f, (s.raise k 0).fault = some f ∧ f.kind = k := ⟨_, rfl, rfl⟩

/-- N = 0 with I anywhere; the last row at 0xFFF; the last row at 0x1000. -/
theorem witness_SpriteTogglesItsPixelsAndReportsCollision :
    ((0 : Fin 16).val = 0 ∨ (0xFFFF : Word).toNat + 0 - 1 < 0x1000) ∧
    ((0xFF1 : Word).toNat + (15 : Fin 16).val - 1 = 0xFFF) ∧
    (1 ≤ (15 : Fin 16).val ∧ (0xFF2 : Word).toNat + (15 : Fin 16).val - 1 = 0x1000) ∧ (14 : Reg) ≠ 15 := by decide

/-- A pixel that is on under a 1 of the sprite, and a display where none is. -/
theorem witness_SpriteCollides :
    (∃ (py : Fin 32) (px : Fin 64), (withData { State.reset with disp := Vector.replicate 32 (Vector.replicate 64 true) }
        0x300 [0x80]).disp[py][px] = true ∧ spriteAt [0x80] 63 31 px py = true) ∧
    (∀ (py : Fin 32) (px : Fin 64), State.reset.disp[py][px] = true → spriteAt [0x80] 63 31 px py = false) :=
  ⟨⟨31, 63, by decide, by decide⟩, fun py px h => by simp [State.reset] at h⟩

theorem witness_CallPushesTheReturnAddress : ({ State.reset with sp := 14 } : State).sp.val < 15 ∧
    ({ State.reset with sp := 15 } : State).sp.val = 15 := by decide

theorem witness_ReturnPopsTheReturnAddress : 0 < ({ State.reset with sp := 1 } : State).sp.val ∧
    State.reset.sp.val = 0 := by decide

theorem witness_ReturnUndoesCall : ({ State.reset with sp := 14 } : State).sp.val < 15 := by decide

theorem witness_KeySkips : ((State.reset.setReg 0 0x0F).reg 0).toNat = (15 : Fin 16).val ∧
    0x0F < ((State.reset.setReg 0 0x10).reg 0).toNat := by decide

theorem witness_FlagInstructionsWriteResultThenFlag : 255 = ((State.reset.setReg 15 0xFF).reg 15).toNat ∧
    0 = ((State.reset.setReg 15 0xFF).reg 0).toNat := by decide

theorem witness_RandomByteIsMasked : (0x7F : Byte).getLsbD 7 = false := by decide

theorem witness_DecimalDigitsAreStored : ({ State.reset with i := 0xFFD } : State).dataAddr + 2 = 0xFFF ∧
    ({ State.reset with i := 0xFFE } : State).dataAddr + 2 = 0x1000 := by decide

/-- Also for the loads and for the round trip: all sixteen registers up to the last byte, and one byte further. -/
theorem witness_RegistersAreStored : ({ State.reset with i := 0xFF0 } : State).dataAddr + (15 : Reg).val = 0xFFF ∧
    ({ State.reset with i := 0xFF1 } : State).dataAddr + (15 : Reg).val = 0x1000 ∧
    ({ State.reset with i := 0xFFF } : State).dataAddr + (0 : Reg).val = 0xFFF ∧
    ({ State.reset with i := 0x1000 } : State).dataAddr + (0 : Reg).val = 0x1000 ∧ (15 : Reg) ≤ 15 := by decide

theorem witness_RegistersAreLoaded : ({ State.reset with i := 0xFF0 } : State).i.toNat + (15 : Reg).val < 0x1000 ∧
    0x1000 ≤ ({ State.reset with i := 0xFF1 } : State).i.toNat + (15 : Reg).val := by decide

theorem witness_LoadRestoresWhatStoreSaved : ({ State.reset with i := 0xFF0 } : State).dataAddr + (15 : Reg).val < 0x1000 := by
  decide

/-- M17. -/
theorem witness_StoredWordIsFetchedNext : 1 ≤ (1 : Reg).val ∧
    ({ State.reset with i := 0x202 } : State).dataAddr + (1 : Reg).val < 0x1000 ∧
    ({ State.reset with i := 0x202 } : State).dataAddr = State.reset.pc.toNat + 2 := by decide

theorem witness_KeyWait : ((machine 0xFF0A).beginStep (draws [] (some 15) 0)).env.ports.lastKey = some 15 ∧
    (machine 0xFF0A).env.ports.lastKey = none := by decide

theorem witness_ParkedMachineStaysParked : (machine 0x1200).Parked ∧ (next .tick (machine 0x1200)).Parked :=
  ⟨⟨0x200, ⟨rfl, rfl, by decide⟩, by decide⟩, ⟨0x200, ⟨rfl, rfl, by decide⟩, by decide⟩⟩

theorem witness_BlockedMachineWaitsForAKey : (machine 0xF30A).Blocked ∧
    StepBegins (machine 0xF30A) ((machine 0xF30A).beginStep noKeys) ∧
    ((machine 0xF30A).beginStep noKeys).env.ports.lastKey = none :=
  ⟨⟨3, rfl, rfl, by decide⟩, machine_begins _ _, rfl⟩

theorem witness_InstructionsWriteOnlyTheirParts :
    ∃ t, exec (.addReg 0 1) (State.reset.setReg 1 5) = .next t ∧ t.reg 0 ≠ (State.reset.setReg 1 5).reg 0 :=
  ⟨_, rfl, by decide⟩

/-- Each row of the fault table, at the first value that raises it. -/
theorem witness_InstructionFaultsExactlyWhenItsRowSays : State.reset.Running ∧
    Instr.raises (.call 0) .stackOverflow { State.reset with sp := 15 } ∧
    Instr.raises .ret .stackUnderflow State.reset ∧
    Instr.raises (.drw 0 0 15) .memoryOutOfRange { State.reset with i := 0xFF2 } ∧
    Instr.raises (.ldB 0) .memoryOutOfRange { State.reset with i := 0xFFE } ∧
    Instr.raises (.ldMemVx 15) .memoryOutOfRange { State.reset with i := 0xFF1 } ∧
    Instr.raises (.ldVxMem 15) .memoryOutOfRange { State.reset with i := 0xFF1 } ∧
    Instr.raises (.skp 0) .keyOutOfRange (State.reset.setReg 0 0x10) ∧
    Instr.raises (.sknp 0) .keyOutOfRange (State.reset.setReg 0 0x10) := by
  refine ⟨rfl, ?_, ?_, ?_, ?_, ?_, ?_, ?_, ?_⟩ <;> simp [Instr.raises, State.reset]

theorem witness_FaultsArePrecise : StepBegins (machine 0x00EE) ((machine 0x00EE).beginStep noKeys) ∧
    (machine 0x00EE).Running ∧
    ∃ t, step (machine 0x00EE) = .next t ∧
      t.fault = some { kind := .stackUnderflow, fpc := 0x200, fword := 0x00EE } :=
  ⟨machine_begins _ _, rfl, _, rfl, rfl⟩

theorem witness_UnsampledDrawsDoNotMatter : Instr.samples (.addI 0) = false ∧
    ∃ t, exec (.addI 0) State.reset = .next t := ⟨rfl, _, rfl⟩

/-- Also from a halted machine, with a reset pending, at a PC that faults. -/
theorem witness_PlacedWordRunsNext : decodeTableWord 16 0x6A7B = some (.ldImm 10 0x7B) ∧
    holds ((next (.reset []) { halted with pc := 0x201 }).withFetchWord 16 0x6A7B)
      (fun t => t.reg 10 == 0x7B && t.pc == 0x202 && t.fault == none) = true := by decide

/-- A Tick of a parked machine keeps the PC. -/
theorem witness_ParkedTick : (next .tick (machine 0x1200)).strobe = .tick ∧
    holds (next .tick (machine 0x1200)) (fun t => t.pc == 0x200) = true := by decide

/-- A script of all three kinds of turn but Reset, and a state with none. -/
theorem witness_EveryOrderOfStepsAndTicksIsARun :
    (∀ rom, Input.reset rom ∉ [Input.tick, .step noKeys, .tick]) ∧ State.reset.env.script = [] := by simp [State.reset, envAtReset]

/-- A state that meets each invariant, reset, and a transition from it. -/
theorem witness_Invariants : MemoryCanonical State.reset ∧ PcBounded State.reset ∧ SlotZeroUnused State.reset ∧
    FaultExplained halted ∧ (∃ t, step (next .tick State.reset) = .next t) ∧ ∃ t, step (next .tick halted) = .next t := by
  refine ⟨rfl, ⟨by decide, by decide⟩, rfl, ?_, ⟨_, rfl⟩, ⟨_, rfl⟩⟩
  rintro f hf
  cases hf
  exact ⟨rfl, .inr ⟨.ret, by decide, rfl⟩⟩

end Sys2Proof.Tests
end

section
/-! ## What an instruction may do: it takes its fault, or it completes within its row of the access matrix -/

namespace Sys2Proof.Machine

variable {s t : State} {i : Instr}

/-! ### The parts between two states -/

/-- A longer list of parts allows more. -/
theorem OnlyChanges.mono {p q : List Part} (hpq : p ⊆ q) (h : OnlyChanges p s t) : OnlyChanges q s t := by
  obtain ⟨hv, hi, hstack, hdt, hst, hmem, hdisp, hfault, hcfg⟩ := h
  exact ⟨hv ∘ mt (@hpq _), hi ∘ mt (@hpq _), hstack ∘ mt (@hpq _), hdt ∘ mt (@hpq _), hst ∘ mt (@hpq _),
    hmem ∘ mt (@hpq _), hdisp ∘ mt (@hpq _), hfault ∘ mt (@hpq _), hcfg⟩

/-- The way `s` becomes `t` when `i` runs without a fault: only the parts of its row (10_state.md R40) and, of the
general registers, only its destinations and its flag (R22) may differ, and nothing outside the block. -/
def Completes (i : Instr) (s t : State) : Prop :=
  OnlyChanges (Instr.writes i) s t ∧ SameOutside s t ∧ ∀ r, t.reg r ≠ s.reg r → Instr.writesReg i r

/-- Where the row holds no general register, the single registers need no argument of their own. -/
theorem Completes.of_regs_notMem (hr : .regs ∉ Instr.writes i) (h : OnlyChanges (Instr.writes i) s t)
    (ho : SameOutside s t) : Completes i s t :=
  ⟨h, ho, fun r hne => absurd (h.1 hr r) hne⟩

/-- Where the row is the general registers, it is enough to look at each register. -/
theorem Completes.of_regs (hw : Instr.writes i = [.regs]) (h : OnlyChanges [.regs] s t) (ho : SameOutside s t)
    (hr : ∀ r, t.reg r ≠ s.reg r → Instr.writesReg i r) : Completes i s t :=
  ⟨hw ▸ h, ho, hr⟩

/-- A result written to one register. -/
theorem completes_setReg {x : Reg} (b : Byte) (hw : Instr.writes i = [.regs]) (hx : Instr.writesReg i x) :
    Completes i s (s.advance.setReg x b) := by
  refine .of_regs hw (by simp [OnlyChanges]) (by simp [SameOutside]) fun r hne => ?_
  obtain rfl : r = x := by by_contra hrx; simp [hrx] at hne
  exact hx

/-- A result written to one register and then a flag to VF. -/
theorem completes_setResultAndFlag {x : Reg} (b : Byte) (c : Bool) (hw : Instr.writes i = [.regs])
    (hx : ∀ r, r = x ∨ r = regF → Instr.writesReg i r) : Completes i s (s.advance.setResultAndFlag x b c) := by
  refine .of_regs hw (by simp [OnlyChanges]) (by simp [SameOutside]) fun r hne => hx r ?_
  by_contra hr
  rw [not_or] at hr
  simp [hr] at hne

/-- Writes from the registers' bytes: those past the list's end keep their value. -/
theorem completes_loadRegs {bs : List Byte} (hw : Instr.writes i = [.regs])
    (hx : ∀ r : Reg, r.val < bs.length → Instr.writesReg i r) : Completes i s (s.advance.loadRegs bs) := by
  refine .of_regs hw (by simp [OnlyChanges]) (by simp [SameOutside]) fun r hne => hx r ?_
  by_contra hr
  simp [List.getElem?_eq_none (Nat.le_of_not_lt hr)] at hne

/-- A skip, taken or not: the PC alone. -/
theorem completes_skipIf (c : Bool) (hw : Instr.writes i = []) : Completes i s (s.advance.skipIf c) :=
  .of_regs_notMem (by simp [hw]) (by simp [hw, OnlyChanges]) (by simp [SameOutside])

/-- A store: memory alone. -/
theorem completes_memWrite {a : Nat} {bs : List Byte} (hw : Instr.writes i = [.memory])
    (h : s.advance.memWrite a bs = some t) : Completes i s t := by
  obtain ⟨hmem, hout, -⟩ := State.memWrite_only h
  exact .of_regs_notMem (by simp [hw]) (hw ▸ hmem) hout

/-! ### The rows of the fault table (60_exceptions.md R180), each with its one kind -/

variable {k : FaultKind}

theorem raises_ret : Instr.raises .ret k s ↔ k = .stackUnderflow ∧ s.sp = 0 := by
  cases k <;> simp [Instr.raises]

theorem raises_call (nnn : Addr) : Instr.raises (.call nnn) k s ↔ k = .stackOverflow ∧ s.sp = 15 := by
  cases k <;> simp [Instr.raises, Fin.ext_iff]

theorem raises_drw (x y : Reg) (n : Fin 16) : Instr.raises (.drw x y n) k s ↔
    k = .memoryOutOfRange ∧ s.memRead s.dataAddr n.val = none := by
  rw [State.memRead_eq_none_iff, State.dataAddr]
  cases k <;> simp [Instr.raises]; omega

theorem raises_ldB (x : Reg) : Instr.raises (.ldB x) k s ↔
    k = .memoryOutOfRange ∧ s.advance.memWrite s.dataAddr (decimalDigits (s.reg x)) = none := by
  rw [State.memWrite_eq_none_iff, State.dataAddr, decimalDigits_length]
  cases k <;> simp [Instr.raises, decimalDigits]; omega

theorem raises_ldMemVx (x : Reg) : Instr.raises (.ldMemVx x) k s ↔
    k = .memoryOutOfRange ∧ s.advance.memWrite s.dataAddr (s.regsTo x) = none := by
  have hne : s.regsTo x ≠ [] := List.ne_nil_of_length_eq_add_one (s.regsTo_length x)
  rw [State.memWrite_eq_none_iff, State.dataAddr, State.regsTo_length]
  cases k <;> simp [Instr.raises, hne]; omega

theorem raises_ldVxMem (x : Reg) : Instr.raises (.ldVxMem x) k s ↔
    k = .memoryOutOfRange ∧ s.memRead s.dataAddr (x.val + 1) = none := by
  rw [State.memRead_eq_none_iff, State.dataAddr]
  cases k <;> simp [Instr.raises]; omega

theorem raises_skp (x : Reg) : Instr.raises (.skp x) k s ↔ k = .keyOutOfRange ∧ keyOf (s.reg x) = none := by
  rw [keyOf_eq_none_iff]
  cases k <;> simp [Instr.raises]

theorem raises_sknp (x : Reg) : Instr.raises (.sknp x) k s ↔ k = .keyOutOfRange ∧ keyOf (s.reg x) = none := by
  rw [keyOf_eq_none_iff]
  cases k <;> simp [Instr.raises]

/-! ### The case analysis of `exec` -/

/-- What `exec i s` can be (60_exceptions.md R180, R184): the fault of `i`'s row of the fault table, taken where that
row says so; or, where no row says so, a next state within `i`'s row of the access matrix. -/
inductive ExecCases (i : Instr) (s : State) : Prop where
  | faults (k : FaultKind) (hk : Instr.raises i k s) (he : exec i s = .next (s.raise k (encode i)))
  | completes (t : State) (hk : ∀ k, ¬ Instr.raises i k s) (he : exec i s = .next t) (hc : Completes i s t)

/-- An instruction with one row of the fault table takes that fault or completes. -/
theorem ExecCases.of_raises_iff {p : Prop} (hr : ∀ {k'}, Instr.raises i k' s ↔ k' = k ∧ p)
    (hf : p → exec i s = .next (s.raise k (encode i)))
    (hc : ¬ p → ∃ t, exec i s = .next t ∧ Completes i s t) : ExecCases i s := by
  by_cases hp : p
  · exact .faults k (hr.2 ⟨rfl, hp⟩) (hf hp)
  · obtain ⟨t, he, ht⟩ := hc hp
    exact .completes t (fun k' h => hp (hr.1 h).2) he ht

/-- An instruction with no row of the fault table completes. -/
theorem ExecCases.of_never (he : exec i s = .next t) (hc : Completes i s t)
    (hr : ∀ k, ¬ Instr.raises i k s := by rintro ⟨⟩ <;> exact id) : ExecCases i s :=
  .completes t hr he hc

theorem execCases_ret (s : State) : ExecCases .ret s := by
  refine .of_raises_iff raises_ret (fun h => by simp only [exec, execRet, if_pos h]) fun h =>
    ⟨s.advance.popPc, by simp only [exec, execRet, if_neg h], ?_⟩
  obtain ⟨hstack, hout, -⟩ := State.popPc_only s.advance
  exact .of_regs_notMem (by simp [Instr.writes]) hstack hout

theorem execCases_call (nnn : Addr) (s : State) : ExecCases (.call nnn) s := by
  refine .of_raises_iff (raises_call nnn) (fun h => by simp only [exec, execCall, if_pos h]) fun h =>
    ⟨s.advance.pushPc.withPc (zextAddr nnn), by simp only [exec, execCall, if_neg h], ?_⟩
  obtain ⟨hstack, hout, -⟩ := State.pushPc_only s.advance
  exact .of_regs_notMem (by simp [Instr.writes]) hstack hout

/-- DXYN whose rows are all in memory: the sprite is drawn and the collision is the flag (41_display.md R101). -/
theorem exec_drw_of_memRead {x y : Reg} {n : Fin 16} {bs : List Byte} {d : Drawing}
    (h : s.memRead s.dataAddr n.val = some bs)
    (hd : d = Drawing.rows ⟨s.disp, false⟩ ((s.reg x).toNat % 64) ((s.reg y).toNat % 32) bs) :
    exec (.drw x y n) s = .next ((s.advance.withDisp d.disp).setFlag d.hit) := by
  simp only [exec, execDrw, h, hd]

theorem execCases_drw (x y : Reg) (n : Fin 16) (s : State) : ExecCases (.drw x y n) s := by
  refine .of_raises_iff (raises_drw x y n) (fun h => by simp only [exec, execDrw, h]) fun h => ?_
  obtain ⟨bs, hbs⟩ := Option.ne_none_iff_exists'.1 h
  refine ⟨_, exec_drw_of_memRead hbs rfl, by simp [OnlyChanges, Instr.writes], by simp [SameOutside],
    fun r hne => ?_⟩
  by_contra hf
  exact hne (by simp [show r ≠ regF from hf])

theorem execCases_ldB (x : Reg) (s : State) : ExecCases (.ldB x) s := by
  refine .of_raises_iff (raises_ldB x) (fun h => by simp only [exec, execLdB, h]) fun h => ?_
  obtain ⟨t, ht⟩ := Option.ne_none_iff_exists'.1 h
  exact ⟨t, by simp only [exec, execLdB, ht], completes_memWrite rfl ht⟩

theorem execCases_ldMemVx (x : Reg) (s : State) : ExecCases (.ldMemVx x) s := by
  refine .of_raises_iff (raises_ldMemVx x) (fun h => by simp only [exec, execLdMemVx, h]) fun h => ?_
  obtain ⟨t, ht⟩ := Option.ne_none_iff_exists'.1 h
  exact ⟨t, by simp only [exec, execLdMemVx, ht], completes_memWrite rfl ht⟩

theorem execCases_ldVxMem (x : Reg) (s : State) : ExecCases (.ldVxMem x) s := by
  refine .of_raises_iff (raises_ldVxMem x) (fun h => by simp only [exec, execLdVxMem, h]) fun h => ?_
  obtain ⟨bs, hbs⟩ := Option.ne_none_iff_exists'.1 h
  refine ⟨s.advance.loadRegs bs, by simp only [exec, execLdVxMem, hbs], completes_loadRegs rfl fun r hr => ?_⟩
  obtain ⟨-, rfl⟩ := State.memRead_eq_some _ _ hbs
  exact Fin.le_def.2 (by simpa [Nat.lt_succ_iff] using hr)

theorem execCases_skp (x : Reg) (s : State) : ExecCases (.skp x) s := by
  refine .of_raises_iff (raises_skp x) (fun h => by simp only [exec, execSkp, h]) fun h => ?_
  obtain ⟨key, hkey⟩ := Option.ne_none_iff_exists'.1 h
  exact ⟨_, by simp only [exec, execSkp, hkey], completes_skipIf s.env.ports.keyDown[key] rfl⟩

theorem execCases_sknp (x : Reg) (s : State) : ExecCases (.sknp x) s := by
  refine .of_raises_iff (raises_sknp x) (fun h => by simp only [exec, execSknp, h]) fun h => ?_
  obtain ⟨key, hkey⟩ := Option.ne_none_iff_exists'.1 h
  exact ⟨_, by simp only [exec, execSknp, hkey], completes_skipIf (!s.env.ports.keyDown[key]) rfl⟩

theorem execCases_ldVxK (x : Reg) (s : State) : ExecCases (.ldVxK x) s := by
  cases h : s.env.ports.lastKey with
  | none =>
    exact .of_never (t := s.advance.rewind) (by simp only [exec, execLdVxK, h])
      (.of_regs rfl (by simp [OnlyChanges]) (by simp [SameOutside]) fun r hne => absurd rfl hne)
  | some key => exact .of_never (by simp only [exec, execLdVxK, h]) (completes_setReg (keyByte key) rfl rfl)

/-- Every instruction either takes the fault its row of the fault table gives it, or completes. -/
theorem exec_cases (i : Instr) (s : State) : ExecCases i s := by
  cases i with
  | ret => exact execCases_ret s
  | call nnn => exact execCases_call nnn s
  | drw x y n => exact execCases_drw x y n s
  | ldB x => exact execCases_ldB x s
  | ldMemVx x => exact execCases_ldMemVx x s
  | ldVxMem x => exact execCases_ldVxMem x s
  | skp x => exact execCases_skp x s
  | sknp x => exact execCases_sknp x s
  | ldVxK x => exact execCases_ldVxK x s
  | ldImm | addImm | ldReg | orReg | andReg | xorReg | rnd | ldVxDt =>
    exact .of_never rfl (completes_setReg _ rfl rfl)
  | addReg | sub | shr | subn | shl =>
    exact .of_never rfl (completes_setResultAndFlag _ _ rfl fun _ h => h)
  | seImm | sneImm | seReg | sneReg =>
    exact .of_never rfl (completes_skipIf _ rfl)
  | cls | jp | jpV0 | ldI | addI | ldF | ldDtVx | ldStVx =>
    refine .of_never rfl (.of_regs_notMem ?_ ?_ ?_)
    · simp [Instr.writes]
    · simp [OnlyChanges, Instr.writes]
    · simp [SameOutside]

/-! ### What every instruction keeps -/

/-- `exec` always answers a next state, and never writes the world outside. -/
theorem exec_next (i : Instr) (s : State) : ∃ t, exec i s = .next t ∧ t.env = s.env := by
  obtain ⟨k, -, he⟩ | ⟨t, -, he, -, ⟨henv, -⟩, -⟩ := exec_cases i s
  · exact ⟨_, he, State.raise_env s k _⟩
  · exact ⟨t, he, henv⟩

/-- Settles O37: a fault writes FAULT alone, and an instruction that completes keeps to its row. -/
theorem instructionsWriteOnlyTheirParts : Obligations.InstructionsWriteOnlyTheirParts := by
  intro i s t h
  obtain ⟨k, -, he⟩ | ⟨u, -, he, honly, ⟨henv, -⟩, hregs⟩ := exec_cases i s
  · obtain rfl : s.raise k (encode i) = t := by simpa [he] using h
    obtain ⟨honly, -, henv, -⟩ := State.raise_only s k (encode i)
    exact ⟨honly.mono (by simp), henv, fun r hne => absurd (State.raise_reg s k (encode i) r) hne⟩
  · obtain rfl : u = t := by simpa [he] using h
    exact ⟨honly.mono (List.subset_cons_self ..), henv, hregs⟩

/-! ## Slot 0 of the stack (10_state.md R27) -/

/-- Only a return and a call have the stack in their row. -/
theorem stack_mem_writes_iff (i : Instr) : .stack ∈ Instr.writes i ↔ i = .ret ∨ ∃ nnn, i = .call nnn := by
  cases i <;> simp [Instr.writes]

/-- A push below SP = 15 writes a slot above 0. -/
theorem State.pushPc_stack_zero (s : State) (h : s.sp ≠ 15) : s.pushPc.stack[0] = s.stack[0] := by
  have hlt : s.sp < Fin.last 15 := Fin.lt_last_iff_ne_last.2 h
  have hslot : (s.sp + 1 : Fin 16).val ≠ 0 := by rw [Fin.val_add_one_of_lt hlt]; omega
  simp [hslot]

/-- No instruction writes slot 0: a return clears no slot, a call writes above SP. -/
theorem exec_stack_zero {i : Instr} {s t : State} (h : exec i s = .next t) : t.stack[0] = s.stack[0] := by
  obtain ⟨hrow, -⟩ := instructionsWriteOnlyTheirParts i s t h
  by_cases hi : .stack ∈ Instr.writes i
  · obtain rfl | ⟨nnn, rfl⟩ := (stack_mem_writes_iff i).1 hi
    · obtain rfl := Host.Outcome.next.inj h
      split <;> rfl
    · obtain rfl := Host.Outcome.next.inj h
      split
      case isTrue => rfl
      case isFalse hsp => exact State.pushPc_stack_zero s.advance hsp
  · obtain ⟨-, -, hstack, -⟩ := hrow
    rw [(hstack (by simpa using hi)).1]

/-- A Step keeps slot 0. -/
theorem State.engineStep_stack_zero {s t : State} (h : s.engineStep = .next t) : t.stack[0] = s.stack[0] := by
  obtain ⟨-, he⟩ | ⟨-, -, he⟩ | ⟨i, -, he⟩ | ⟨-, -, -, he⟩ := s.engineStep_cases <;> rw [he] at h
  · obtain rfl := Host.Outcome.next.inj h; rfl
  · obtain rfl := Host.Outcome.next.inj h; rfl
  · exact exec_stack_zero h
  · obtain rfl := Host.Outcome.next.inj h; rfl

/-- Settles O45: a Step keeps slot 0, a Tick the whole stack, and a Reset clears it. -/
theorem transitionsLeaveSlotZeroUnused : Obligations.TransitionsLeaveSlotZeroUnused := by
  intro s t h0 h
  obtain ⟨s', hb, he⟩ | ⟨-, he⟩ | ⟨rom, -, he⟩ := step_cases s <;> rw [he] at h
  · have hstack : s'.stack = s.stack := by rw [hb.keeps]
    exact (State.engineStep_stack_zero h).trans (hstack ▸ h0)
  · obtain rfl := Host.Outcome.next.inj h
    simpa [SlotZeroUnused] using h0
  · obtain ⟨-, hl⟩ | ⟨-, hl⟩ := s.accept.load_cases rom <;> rw [hl] at h
    · obtain rfl := Host.Outcome.next.inj h; rfl
    · cases h

/-! ## Runs (10_state.md R25) -/

/-- A Step has a next state, and the strobes to come are those it began with. -/
theorem State.engineStep_next (s : State) : ∃ t, s.engineStep = .next t ∧ t.env = s.env := by
  obtain ⟨-, he⟩ | ⟨-, -, he⟩ | ⟨i, -, he⟩ | ⟨-, -, -, he⟩ := s.engineStep_cases
  · exact ⟨s, he, rfl⟩
  · exact ⟨_, he, rfl⟩
  · exact he ▸ exec_next i s
  · exact ⟨_, he, rfl⟩

/-- `t` is a state in which the strobe that `s` awaited has been taken, and no other. -/
def StrobeTaken (s t : State) : Prop :=
  t.env.script = s.env.afterStrobe.script ∧ t.env.drawn = s.env.afterStrobe.drawn

theorem StrobeTaken.of_script_cons {s t : State} {x : Input} {rest : List Input} (h : StrobeTaken s t)
    (hs : s.env.script = x :: rest) : t.env.script = rest ∧ t.env.drawn = s.env.drawn := by
  obtain ⟨-, henv⟩ := s.strobe_of_script hs
  simpa [StrobeTaken, henv] using h

theorem StrobeTaken.of_script_nil {s t : State} (h : StrobeTaken s t) (hs : s.env.script = []) :
    t.env.script = [] ∧ t.env.drawn = s.env.drawn + 1 := by
  obtain ⟨-, henv⟩ := s.strobe_of_script_nil hs
  simpa [StrobeTaken, henv, hs] using h

/-- A transition takes its strobe and has a next state, but for a Reset whose ROM is too long. -/
theorem step_next_or_romTooLarge (s : State) :
    (∃ t, step s = .next t ∧ StrobeTaken s t) ∨
    (step s = .fault .romTooLarge ∧ ∃ rom, s.strobe = .reset rom ∧ 3584 < rom.length) := by
  obtain ⟨s', ⟨d, -, rfl⟩, he⟩ | ⟨-, he⟩ | ⟨rom, hs, he⟩ := step_cases s
  · obtain ⟨t, ht, henv⟩ := State.engineStep_next _
    exact .inl ⟨t, he.trans ht, by simp [StrobeTaken, henv]⟩
  · exact .inl ⟨_, he, by simp [StrobeTaken]⟩
  · obtain ⟨-, hl⟩ | ⟨hlong, hl⟩ := s.accept.load_cases rom
    · exact .inl ⟨_, he.trans hl, by simp [StrobeTaken]⟩
    · exact .inr ⟨he.trans hl, rom, hs, hlong⟩

theorem State.after_succ_of_next {s t : State} (h : step s = .next t) (n : Nat) : s.after (n + 1) = t.after n := by
  simp only [State.after, h]

theorem State.after_succ_of_fault {s : State} {r : Fault} (h : step s = .fault r) (n : Nat) :
    s.after (n + 1) = .fault r := by
  simp only [State.after, h]

/-- A script without a Reset runs to its end. -/
theorem after_script (l : List Input) (s : State) (hl : ∀ rom, Input.reset rom ∉ l) (hs : s.env.script = l) :
    ∃ t, s.after l.length = .next t ∧ t.env.script = [] ∧ t.env.drawn = s.env.drawn := by
  induction l generalizing s with
  | nil => exact ⟨s, rfl, hs, rfl⟩
  | cons x rest ih =>
    obtain ⟨t, ht, htaken⟩ | ⟨-, rom, hrom, -⟩ := step_next_or_romTooLarge s
    · obtain ⟨hscript, hdrawn⟩ := htaken.of_script_cons hs
      obtain ⟨u, hu, hend, hfree⟩ := ih t (fun rom => mt (List.mem_cons_of_mem x) (hl rom)) hscript
      exact ⟨u, (State.after_succ_of_next ht _).trans hu, hend, hfree.trans hdrawn⟩
    · obtain ⟨hx, -⟩ := s.strobe_of_script hs
      obtain rfl : x = .reset rom := hx.symm.trans hrom
      exact absurd List.mem_cons_self (hl rom)

/-- Past the script each transition takes the next free strobe, until a Reset among them has a ROM that is too long. -/
theorem after_free (n : Nat) (s : State) (hs : s.env.script = []) :
    (∃ t, s.after n = .next t ∧ t.env.script = [] ∧ t.env.drawn = s.env.drawn + n) ∨
    (s.after n = .fault .romTooLarge ∧
      ∃ k rom, k < n ∧ Config.freeStrobe (s.env.drawn + k) = .reset rom ∧ 3584 < rom.length) := by
  induction n generalizing s with
  | zero => exact .inl ⟨s, rfl, hs, rfl⟩
  | succ n ih =>
    obtain ⟨t, ht, htaken⟩ | ⟨hf, rom, hrom, hlong⟩ := step_next_or_romTooLarge s
    · obtain ⟨hscript, hdrawn⟩ := htaken.of_script_nil hs
      rw [State.after_succ_of_next ht]
      obtain ⟨u, hu, hend, hcount⟩ | ⟨hu, k, rom, hk, hrom, hlong⟩ := ih t hscript
      · exact .inl ⟨u, hu, hend, by rw [hcount, hdrawn]; omega⟩
      · refine .inr ⟨hu, k + 1, rom, by omega, ?_, hlong⟩
        rw [← hrom, hdrawn, Nat.add_right_comm, Nat.add_assoc]
    · obtain ⟨hfree, -⟩ := s.strobe_of_script_nil hs
      exact .inr ⟨State.after_succ_of_fault hf n, 0, rom, by omega, hfree ▸ hrom, hlong⟩

/-- Settles O48: by induction on the script, and past it on the number of transitions. -/
theorem everyOrderOfStepsAndTicksIsARun : Obligations.EveryOrderOfStepsAndTicksIsARun := by
  refine ⟨after_script, fun n s hs => ?_⟩
  obtain ⟨t, ht, hend, hdrawn⟩ | hlong := after_free n s hs
  · obtain ⟨hstrobe, -⟩ := t.strobe_of_script_nil hend
    exact .inl ⟨t, ht, hend, hdrawn, hdrawn ▸ hstrobe⟩
  · exact .inr hlong

/-! ## The output ports (10_state.md R38) -/

/-- Pixel (x, y) of the display port, row by row. -/
theorem State.displayPort_getElem? (s : State) (y : Fin 32) (x : Fin 64) :
    s.displayPort[y.val * 64 + x.val]? = some s.disp[y][x] := by
  have hk : y.val * 64 + x.val < 2048 := by omega
  have hrow : (y.val * 64 + x.val) / 64 = y.val := by omega
  have hcol : (y.val * 64 + x.val) % 64 = x.val := by omega
  simp [State.displayPort, hk, hrow, hcol]

theorem State.soundOn_iff (s : State) : s.soundOn = true ↔ s.st.toNat ≠ 0 := by
  simp [State.soundOn, ← BitVec.toNat_inj]

/-- No kind of fault has the code of a running machine. -/
theorem FaultKind.code_ne_zero (k : FaultKind) : k.code ≠ 0 := by cases k <;> decide

theorem State.faultCode_eq_zero_iff (s : State) : s.faultCode = 0 ↔ s.fault = none := by
  unfold State.faultCode
  cases s.fault with
  | none => simp
  | some f => simpa using f.kind.code_ne_zero

theorem State.faultCode_of_fault {s : State} {f : FaultRecord} (h : s.fault = some f) : s.faultCode = f.kind.code := by
  simp only [State.faultCode, h]

/-- Settles O14: each port from its own definition. -/
theorem outputPortsShowTheState : Obligations.OutputPortsShowTheState := fun s =>
  ⟨s.displayPort_getElem?, s.soundOn_iff, s.faultCode_eq_zero_iff.symm, fun f h => by
    rw [State.faultCode_of_fault h]
    cases f.kind <;> rfl⟩

end Sys2Proof.Machine
end

section
/-! ## Memory across a transition, and the word fetched after a store (20_memory.md) -/

namespace Sys2Proof.Machine

variable {s t : State} {i : Instr} {x : Reg}

/-! ### Who writes memory -/

/-- What an instruction does with memory as data: it leaves the list as it is, or it ends in one checked store. -/
theorem exec_mem_cases (h : exec i s = .next t) :
    t.mem = s.mem ∨ ∃ a bs, s.advance.memWrite a bs = some t := by
  cases i with
  | ldB | ldMemVx =>
    simp only [exec, execLdB, execLdMemVx] at h
    split at h
    case h_1 => obtain rfl := Host.Outcome.next.inj h; exact .inl rfl
    case h_2 u hu => obtain rfl := Host.Outcome.next.inj h; exact .inr ⟨_, _, hu⟩
  | drw | ldVxMem | skp | sknp =>
    simp only [exec, execDrw, execLdVxMem, execSkp, execSknp] at h
    split at h <;> obtain rfl := Host.Outcome.next.inj h <;> exact .inl (by simp)
  | ret | call | ldVxK =>
    obtain rfl := Host.Outcome.next.inj h
    left
    split <;> rfl
  | seImm | sneImm | seReg | sneReg =>
    obtain rfl := Host.Outcome.next.inj h
    exact .inl (State.skipIf_mem s.advance _)
  | cls | jp | jpV0 | ldI | addI | ldF | ldDtVx | ldStVx | ldImm | addImm | ldReg | orReg | andReg | xorReg | rnd
  | ldVxDt | addReg | sub | shr | subn | shl =>
    obtain rfl := Host.Outcome.next.inj h
    exact .inl rfl

/-! ### The canonical form -/

/-- Only the parameters and the memory matter to the canonical form. -/
theorem MemoryCanonical.congr (h : MemoryCanonical s) (hcfg : t.cfg = s.cfg) (hmem : t.mem = s.mem) :
    MemoryCanonical t := by
  rwa [MemoryCanonical, hcfg, hmem]

theorem exec_memoryCanonical (hs : MemoryCanonical s) (h : exec i s = .next t) : MemoryCanonical t := by
  obtain hmem | ⟨a, bs, hw⟩ := exec_mem_cases h
  · obtain ⟨⟨-, -, -, -, -, -, -, -, hcfg⟩, -⟩ := instructionsWriteOnlyTheirParts i s t h
    exact hs.congr hcfg hmem
  · exact State.memWrite_wf a s.advance hw hs

theorem State.engineStep_memoryCanonical (hs : MemoryCanonical s) (h : s.engineStep = .next t) :
    MemoryCanonical t := by
  obtain ⟨-, he⟩ | ⟨-, -, he⟩ | ⟨i, -, he⟩ | ⟨-, -, -, he⟩ := s.engineStep_cases <;> rw [he] at h
  · obtain rfl := Host.Outcome.next.inj h; exact hs
  · obtain rfl := Host.Outcome.next.inj h; exact hs.congr rfl rfl
  · exact exec_memoryCanonical hs h
  · obtain rfl := Host.Outcome.next.inj h; exact hs.congr rfl rfl

/-- Reset builds memory anew from nothing, and the ROM it accepts ends within the address space. -/
theorem State.load_memoryCanonical {rom : List Byte} (h : s.load rom = .next t) : MemoryCanonical t := by
  obtain ⟨hlen, hl⟩ | ⟨-, hl⟩ := s.load_cases rom <;> rw [hl] at h
  · obtain rfl := Host.Outcome.next.inj h
    exact Memory.wf_writeList s.cfg.fontRom [] 0x200 rom rfl (by unfold memSize; omega)
  · cases h

/-- Settles O43: a Step writes memory by one checked store or not at all, a Tick not at all, and a Reset builds it
anew. -/
theorem transitionsKeepMemoryCanonical : Obligations.TransitionsKeepMemoryCanonical := by
  intro s t hs h
  obtain ⟨s', hb, he⟩ | ⟨-, he⟩ | ⟨rom, -, he⟩ := step_cases s <;> rw [he] at h
  · have hs' : MemoryCanonical s' := hs.congr (by rw [hb.keeps]) (by rw [hb.keeps])
    exact State.engineStep_memoryCanonical hs' h
  · obtain rfl := Host.Outcome.next.inj h
    exact hs.congr (by simp) (by simp)
  · exact State.load_memoryCanonical h

/-! ### The store of FX55 (45_index_memory.md R154) -/

/-- FX55 with its last address in memory is one store, made after the fetch advance. -/
theorem exec_ldMemVx_of_lt (h : s.dataAddr + x.val < 0x1000) :
    ∃ t, exec (.ldMemVx x) s = .next t ∧ s.advance.memWrite s.dataAddr (s.regsTo x) = some t := by
  have hin : s.advance.memWrite s.dataAddr (s.regsTo x) ≠ none := by
    rw [Ne, State.memWrite_eq_none_iff, State.regsTo_length]
    omega
  obtain ⟨t, ht⟩ := Option.ne_none_iff_exists'.1 hin
  exact ⟨t, by simp only [exec, execLdMemVx, ht], ht⟩

/-- The k-th byte stored is register k. -/
theorem State.memWrite_regsTo_readByte {a : Nat} (h : s.advance.memWrite a (s.regsTo x) = some t) (k : Reg)
    (hk : k ≤ x) : t.readByte (a + k.val) = s.reg k := by
  have hlt : k.val < (s.regsTo x).length := by
    rw [State.regsTo_length]
    exact Nat.lt_succ_of_le hk
  rw [State.memWrite_readByte a s.advance h, dif_pos ⟨by omega, by omega⟩, State.regsTo_getElem]
  simp

/-- Settles O32: the PC after FX55 is the address it stores at, so the next word is its first two bytes. -/
theorem storedWordIsFetchedNext : Obligations.StoredWordIsFetchedNext := by
  intro s x hx hlt hpc
  obtain ⟨t, he, ht⟩ := exec_ldMemVx_of_lt hlt
  refine ⟨t, he, ?_⟩
  obtain ⟨-, -, htpc, -⟩ := State.memWrite_only ht
  have hnext : t.pc.toNat = s.dataAddr := by
    rw [htpc, State.advance_pc, BitVec.toNat_add, hpc]
    exact Nat.mod_eq_of_lt (by simp; omega)
  have h0 : t.readByte s.dataAddr = s.reg 0 := State.memWrite_regsTo_readByte ht 0 (Fin.zero_le x)
  have h1 : t.readByte (s.dataAddr + 1) = s.reg 1 := State.memWrite_regsTo_readByte ht 1 hx
  rw [State.fetchWord, wordOfBytes_toNat, hnext, h0, h1]

end Sys2Proof.Machine
end

section
/-! ## The encoder and the decoder undo each other; the words no row selects (30_encoding.md) -/

namespace Sys2Proof

open Laws

variable {w : Word}

/-! ### Decode after encode: the row of an instruction reads its operands back -/

/-- The word of every instruction is selected by the instruction's own row. -/
theorem ownRow_selects_encode (i : Instr) : RowSelects.Statement i := by
  cases i with
  | cls => exact RowSelects.cls
  | ret => exact RowSelects.ret
  | jp nnn => exact RowSelects.jp nnn
  | call nnn => exact RowSelects.call nnn
  | seImm x nn => exact RowSelects.seImm x nn
  | sneImm x nn => exact RowSelects.sneImm x nn
  | seReg x y => exact RowSelects.seReg x y
  | ldImm x nn => exact RowSelects.ldImm x nn
  | addImm x nn => exact RowSelects.addImm x nn
  | ldReg x y => exact RowSelects.ldReg x y
  | orReg x y => exact RowSelects.orReg x y
  | andReg x y => exact RowSelects.andReg x y
  | xorReg x y => exact RowSelects.xorReg x y
  | addReg x y => exact RowSelects.addReg x y
  | sub x y => exact RowSelects.sub x y
  | shr x y => exact RowSelects.shr x y
  | subn x y => exact RowSelects.subn x y
  | shl x y => exact RowSelects.shl x y
  | sneReg x y => exact RowSelects.sneReg x y
  | ldI nnn => exact RowSelects.ldI nnn
  | jpV0 nnn => exact RowSelects.jpV0 nnn
  | rnd x nn => exact RowSelects.rnd x nn
  | drw x y n => exact RowSelects.drw x y n
  | skp x => exact RowSelects.skp x
  | sknp x => exact RowSelects.sknp x
  | ldVxDt x => exact RowSelects.ldVxDt x
  | ldVxK x => exact RowSelects.ldVxK x
  | ldDtVx x => exact RowSelects.ldDtVx x
  | ldStVx x => exact RowSelects.ldStVx x
  | addI x => exact RowSelects.addI x
  | ldF x => exact RowSelects.ldF x
  | ldB x => exact RowSelects.ldB x
  | ldMemVx x => exact RowSelects.ldMemVx x
  | ldVxMem x => exact RowSelects.ldVxMem x

/-- The row of an instruction reads every operand back from the instruction's word. -/
theorem ownRow_instr_fields_encode (i : Instr) {r : Row} (h : opcodeTable[RowSelects.rowNumber i]? = some r) :
    r.instr (fields (encode i)) = i := by
  cases i <;> obtain rfl := Option.some.inj h
  case cls | ret => rfl
  case jp | call | ldI | jpV0 => simp [encode, fields_wordNNN]
  case seImm x nn | sneImm x nn | ldImm x nn | addImm x nn | rnd x nn =>
    simp [encode, fields_wordXNN_x, fields_wordXNN_nn, nn.isLt]
  case skp | sknp | ldVxDt | ldVxK | ldDtVx | ldStVx | addI | ldF | ldB | ldMemVx | ldVxMem =>
    simp [encode, fields_wordXNN_x]
  case seReg | ldReg | orReg | andReg | xorReg | addReg | sub | shr | subn | shl | sneReg =>
    simp [encode, fields_wordXYN]
  case drw x y n =>
    obtain ⟨hx, hy, hn⟩ := fields_wordXYN (op := 0xD) (x := x) (y := y) (by decide) n.isLt
    simp only [encode, hx, hy, Fin.ext hn]

theorem decodeWord_encode (i : Instr) : decodeWord (encode i) = some i := by
  obtain ⟨r, hr, hs⟩ := ownRow_selects_encode i
  rw [decodeWord_of_selects hr hs, ownRow_instr_fields_encode i hr]

/-- Decoding the two bytes of an implemented word takes those bytes and leaves the others. -/
theorem decode_bytesOfWord_append {i : Instr} (h : decodeWord w = some i) (rest : List Byte) :
    decode (bytesOfWord w ++ rest) = .ok (i, rest) := by
  simp only [bytesOfWord, List.cons_append, List.nil_append, decode, wordOfBytes_bytesOfWord, h]

/-- Settles O3: the word of an instruction is selected by its own row, which reads the operands back. -/
theorem decodeUndoesEncode : Obligations.DecodeUndoesEncode := fun i rest =>
  ⟨decodeWord_encode i, decode_bytesOfWord_append (decodeWord_encode i) rest⟩

/-! ### Encode after decode: a row's fields and its fixed bits are the whole word -/

theorem wordNNN_fields {op : Nat} (hop : w.toNat / 4096 = op) : wordNNN op (fields w).nnn.toNat = w := by
  apply BitVec.eq_of_toNat_eq
  rw [wordNNN_toNat (by omega) (fields w).nnn.isLt, fields_nnn]
  omega

theorem wordXNN_fields {op nn : Nat} (hop : w.toNat / 4096 = op) (hnn : w.toNat % 256 = nn) :
    wordXNN op (fields w).x nn = w := by
  apply BitVec.eq_of_toNat_eq
  rw [wordXNN_toNat (by omega) (fields w).x.isLt (by omega), fields_x]
  omega

theorem wordXYN_fields {op n : Nat} (hop : w.toNat / 4096 = op) (hn : w.toNat % 16 = n) :
    wordXYN op (fields w).x (fields w).y n = w := by
  apply BitVec.eq_of_toNat_eq
  rw [wordXYN_toNat (by omega) (fields w).x.isLt (fields w).y.isLt (by omega), fields_x, fields_y]
  omega

/-! The words that a row selects, by its mask: one word, or those with its op, its op and N, or its op and NN. -/

theorem Row.selects_FFFF_iff {v : Word} {f : Fields → Instr} : Row.selects ⟨0xFFFF, v, f⟩ w = true ↔ w = v :=
  ⟨Row.eq_of_selects_FFFF, fun h => by simp only [Row.selects, beq_iff_eq]; exact (land_FFFF w).trans h⟩

theorem Row.selects_F000_iff {v : Word} {f : Fields → Instr} :
    Row.selects ⟨0xF000, v, f⟩ w = true ↔ w.toNat / 4096 * 4096 = v.toNat :=
  ⟨Row.toNat_of_selects_F000, Row.selects_F000⟩

theorem Row.selects_F00F_iff {v : Word} {f : Fields → Instr} :
    Row.selects ⟨0xF00F, v, f⟩ w = true ↔ w.toNat / 4096 * 4096 + w.toNat % 16 = v.toNat :=
  ⟨Row.toNat_of_selects_F00F, Row.selects_F00F⟩

theorem Row.selects_F0FF_iff {v : Word} {f : Fields → Instr} :
    Row.selects ⟨0xF0FF, v, f⟩ w = true ↔ w.toNat / 4096 * 4096 + w.toNat % 256 = v.toNat :=
  ⟨Row.toNat_of_selects_F0FF, Row.selects_F0FF⟩

/-- No bit is lost on a row: what it reads from a word it selects encodes to that word. -/
def Row.LosesNoBit (r : Row) : Prop := ∀ w, r.selects w = true → encode (r.instr (fields w)) = w

theorem Row.LosesNoBit.whole {v : Word} {i : Instr} (h : encode i = v) : Row.LosesNoBit ⟨0xFFFF, v, fun _ => i⟩ :=
  fun _ hs => h.trans (Row.selects_FFFF_iff.1 hs).symm

theorem Row.LosesNoBit.nnn {v : Word} {mk : Addr → Instr}
    (h : ∀ nnn, encode (mk nnn) = wordNNN (v.toNat / 4096) nnn.toNat) :
    Row.LosesNoBit ⟨0xF000, v, fun f => mk f.nnn⟩ := fun w hs => by
  have hv : w.toNat / 4096 * 4096 = v.toNat := Row.selects_F000_iff.1 hs
  exact (h _).trans (wordNNN_fields (by omega))

theorem Row.LosesNoBit.xnn {v : Word} {mk : Reg → Byte → Instr}
    (h : ∀ x nn, encode (mk x nn) = wordXNN (v.toNat / 4096) x nn.toNat) :
    Row.LosesNoBit ⟨0xF000, v, fun f => mk f.x f.nn⟩ := fun w hs => by
  have hv : w.toNat / 4096 * 4096 = v.toNat := Row.selects_F000_iff.1 hs
  exact (h _ _).trans (wordXNN_fields (by omega) (fields_nn w).symm)

theorem Row.LosesNoBit.xyn {v : Word} {mk : Reg → Reg → Fin 16 → Instr}
    (h : ∀ x y n, encode (mk x y n) = wordXYN (v.toNat / 4096) x y n) :
    Row.LosesNoBit ⟨0xF000, v, fun f => mk f.x f.y f.n⟩ := fun w hs => by
  have hv : w.toNat / 4096 * 4096 = v.toNat := Row.selects_F000_iff.1 hs
  exact (h _ _ _).trans (wordXYN_fields (by omega) (fields_n w).symm)

theorem Row.LosesNoBit.xy {v : Word} {mk : Reg → Reg → Instr}
    (h : ∀ x y, encode (mk x y) = wordXYN (v.toNat / 4096) x y (v.toNat % 16)) :
    Row.LosesNoBit ⟨0xF00F, v, fun f => mk f.x f.y⟩ := fun w hs => by
  have hv : w.toNat / 4096 * 4096 + w.toNat % 16 = v.toNat := Row.selects_F00F_iff.1 hs
  exact (h _ _).trans (wordXYN_fields (by omega) (by omega))

theorem Row.LosesNoBit.x {v : Word} {mk : Reg → Instr}
    (h : ∀ x, encode (mk x) = wordXNN (v.toNat / 4096) x (v.toNat % 256)) :
    Row.LosesNoBit ⟨0xF0FF, v, fun f => mk f.x⟩ := fun w hs => by
  have hv : w.toNat / 4096 * 4096 + w.toNat % 256 = v.toNat := Row.selects_F0FF_iff.1 hs
  exact (h _).trans (wordXNN_fields (by omega) (by omega))

/-- Every row of the opcode map has one of these six shapes. -/
theorem opcodeTable_losesNoBit : ∀ r ∈ opcodeTable, r.LosesNoBit := by
  simp only [opcodeTable, rows1to9, rows10to18, rows19to25, rows26to34, List.forall_mem_append,
    List.forall_mem_cons, List.not_mem_nil, false_implies, implies_true, and_true]
  refine ⟨⟨⟨?ops0to7, ?op8⟩, ?ops9toE⟩, ?opF⟩
  case ops0to7 =>
    exact ⟨.whole rfl, .whole rfl, .nnn fun _ => rfl, .nnn fun _ => rfl, .xnn fun _ _ => rfl, .xnn fun _ _ => rfl,
      .xy fun _ _ => rfl, .xnn fun _ _ => rfl, .xnn fun _ _ => rfl⟩
  case op8 =>
    refine ⟨?_, ?_, ?_, ?_, ?_, ?_, ?_, ?_, ?_⟩ <;> exact .xy fun _ _ => rfl
  case ops9toE =>
    exact ⟨.xy fun _ _ => rfl, .nnn fun _ => rfl, .nnn fun _ => rfl, .xnn fun _ _ => rfl, .xyn fun _ _ _ => rfl,
      .x fun _ => rfl, .x fun _ => rfl⟩
  case opF =>
    refine ⟨?_, ?_, ?_, ?_, ?_, ?_, ?_, ?_, ?_⟩ <;> exact .x fun _ => rfl

/-- Settles O4: the word was selected by a row, and that row loses no bit of it. -/
theorem encodeUndoesDecode : Obligations.EncodeUndoesDecode := by
  intro w i h
  obtain ⟨r, hr, hs, rfl⟩ := row_of_decodeWord h
  exact opcodeTable_losesNoBit r hr w hs

/-! ### The words that no row selects (R73, R76) -/

theorem decodeWord_eq_none_iff (w : Word) : decodeWord w = none ↔ ∀ r ∈ opcodeTable, ¬ r.selects w = true := by
  rw [decodeWord, Option.map_eq_none_iff, List.find?_eq_none]

/-- A running machine that may fetch, and fetches an unimplemented word, has one case of the Step left (R94). -/
theorem Machine.State.engineStep_of_decodeWord_none {s : Machine.State} (hr : s.Running)
    (hf : s.Fetchable) (hd : decodeWord s.fetchWord = none) :
    s.engineStep = .next (s.unimplemented s.fetchWord) := by
  obtain ⟨hhalt, -⟩ | ⟨-, hp, -⟩ | ⟨i, ⟨-, -, hi⟩, -⟩ | ⟨-, -, -, he⟩ := s.engineStep_cases
  · exact absurd hr hhalt
  · exact absurd (hf.symm.trans hp) (by decide)
  · exact absurd (hd.symm.trans hi) (by simp)
  · exact he

/-- Settles O5: rows exclude each other, so at most one selects a word; where none does, the decoder answers none. -/
theorem everyWordMatchesOneRowOrNone : Obligations.EveryWordMatchesOneRowOrNone := by
  intro w
  by_cases h : ∃ r ∈ opcodeTable, r.selects w = true
  · obtain ⟨r, hr, hs⟩ := h
    obtain ⟨k, hk⟩ := List.getElem?_of_mem hr
    exact .inl ⟨k, r, hk, hs, decodeWord_of_selects hk hs, fun _ _ hk' hs' => row_unique hk hk' hs hs'⟩
  · have hnone : ∀ r ∈ opcodeTable, ¬ r.selects w = true := fun r hr hs => h ⟨r, hr, hs⟩
    have hd : decodeWord w = none := (decodeWord_eq_none_iff w).2 hnone
    refine .inr ⟨fun r hr => Bool.eq_false_iff.2 (hnone r hr), hd, fun s hrun hf hw => ?_⟩
    subst hw
    exact Machine.State.engineStep_of_decodeWord_none hrun hf hd

/-! When no row of a part of the map selects a word: for each op of that part, what the word's other fields are not. -/

theorem rows1to9_unselected_iff (w : Word) : (∀ r ∈ rows1to9, ¬ r.selects w = true) ↔
    ¬ (w.toNat / 4096 = 0x0 ∧ (w = 0x00E0 ∨ w = 0x00EE)) ∧ w.toNat / 4096 ∉ [0x1, 0x2, 0x3, 0x4, 0x6, 0x7] ∧
      ¬ (w.toNat / 4096 = 0x5 ∧ w.toNat % 16 = 0) := by
  simp only [rows1to9, List.forall_mem_cons, Row.selects_FFFF_iff, Row.selects_F000_iff, Row.selects_F00F_iff]
  simp [← BitVec.toNat_inj]
  omega

theorem rows10to18_unselected_iff (w : Word) : (∀ r ∈ rows10to18, ¬ r.selects w = true) ↔
    ¬ (w.toNat / 4096 = 0x8 ∧ w.toNat % 16 ∈ [0x0, 0x1, 0x2, 0x3, 0x4, 0x5, 0x6, 0x7, 0xE]) := by
  simp only [rows10to18, List.forall_mem_cons, Row.selects_F00F_iff]
  simp
  omega

theorem rows19to25_unselected_iff (w : Word) : (∀ r ∈ rows19to25, ¬ r.selects w = true) ↔
    ¬ (w.toNat / 4096 = 0x9 ∧ w.toNat % 16 = 0) ∧ w.toNat / 4096 ∉ [0xA, 0xB, 0xC, 0xD] ∧
      ¬ (w.toNat / 4096 = 0xE ∧ w.toNat % 256 ∈ [0x9E, 0xA1]) := by
  simp only [rows19to25, List.forall_mem_cons, Row.selects_F000_iff, Row.selects_F00F_iff, Row.selects_F0FF_iff]
  simp
  omega

theorem rows26to34_unselected_iff (w : Word) : (∀ r ∈ rows26to34, ¬ r.selects w = true) ↔
    ¬ (w.toNat / 4096 = 0xF ∧ w.toNat % 256 ∈ [0x07, 0x0A, 0x15, 0x18, 0x1E, 0x29, 0x33, 0x55, 0x65]) := by
  simp only [rows26to34, List.forall_mem_cons, Row.selects_F0FF_iff]
  simp
  omega

/-- Settles O6: the four parts of the map together, one op at a time; ops 1 to 4, 6, 7 and A to D have no free word. -/
theorem unimplementedWordsAreExactlyThese : Obligations.UnimplementedWordsAreExactlyThese := by
  intro w
  rw [decodeWord_eq_none_iff, opcodeTable]
  simp only [List.forall_mem_append, rows1to9_unselected_iff, rows10to18_unselected_iff,
    rows19to25_unselected_iff, rows26to34_unselected_iff]
  have hop : w.toNat / 4096 < 16 := by omega
  have hop8 : w.toNat % 16 ∈ [0x8, 0x9, 0xA, 0xB, 0xC, 0xD, 0xF] ↔
      w.toNat % 16 ∉ [0x0, 0x1, 0x2, 0x3, 0x4, 0x5, 0x6, 0x7, 0xE] := by simp; omega
  rw [hop8]
  generalize w.toNat / 4096 = op at hop ⊢
  interval_cases op <;> simp

/-! ### The fields and the word (R71) -/

/-- Settles O1: each field by its position, and the word and its longer fields from the shorter ones. -/
theorem fieldsReassembleTheWord : Obligations.FieldsReassembleTheWord := by
  intro w
  refine ⟨fields_op w, fields_x w, fields_y w, fields_n w, fields_nn w, fields_nnn w, ?_, ?_, ?_⟩
  · rw [fields_op, fields_x, fields_y, fields_n]; omega
  · rw [fields_nn, fields_y, fields_n]; omega
  · rw [fields_nnn, fields_x, fields_nn]; omega

/-- Settles O2: sixteen fixed words, each looked up in the opcode map. -/
theorem wordsOfThePatternsDecode : Obligations.WordsOfThePatternsDecode := by
  unfold Obligations.WordsOfThePatternsDecode
  decide

end Sys2Proof
end

section
/-! ## The cycle: what a Step does in each of its cases (40_cycle.md R90 to R96) -/

namespace Sys2Proof.Machine

variable {s s' t : State} {i : Instr}

/-! ### The fetch check and the beginning of a Step -/

/-- The fetch check of R91, as the bounds it sets on the PC. -/
theorem State.fetchable_iff (s : State) :
    s.Fetchable ↔ s.pc.toNat ≤ 0xFFE ∧ (s.cfg.strictPc = true → s.pc.toNat % 2 = 0 ∧ 0x200 ≤ s.pc.toNat) := by
  unfold State.Fetchable pcFaults
  cases s.cfg.strictPc <;> simp

/-- Past an allowed fetch the next word's address does not wrap. -/
theorem State.Fetchable.toNat_pc_add_two (h : s.Fetchable) : (s.pc + 2).toNat = s.pc.toNat + 2 := by
  obtain ⟨hle, -⟩ := s.fetchable_iff.1 h
  simp only [BitVec.toNat_add, BitVec.reduceToNat]
  omega

/-- Whether an instruction stands at the PC depends on FAULT, STRICT_PC and FONT_ROM, the PC and memory alone. -/
theorem State.At.congr (h : s.At i) (hfault : t.fault = s.fault) (hcfg : t.cfg = s.cfg) (hpc : t.pc = s.pc)
    (hmem : t.mem = s.mem) : t.At i := by
  unfold State.At State.Running State.Fetchable State.fetchWord State.readByte
  rw [hfault, hcfg, hpc, hmem]
  exact h

/-- The instruction at the PC is still there when a Step begins. -/
theorem StepBegins.at_of_at (hb : StepBegins s s') (h : s.At i) : s'.At i := by
  obtain ⟨d, -, rfl⟩ := hb
  exact h

/-! ### The cases of a Step -/

theorem State.engineStep_of_at (h : s.At i) : s.engineStep = exec i s := by
  obtain ⟨hrun, hfetch, hdec⟩ := h
  obtain ⟨hhalt, -⟩ | ⟨-, hp, -⟩ | ⟨j, ⟨-, -, hj⟩, he⟩ | ⟨-, -, hnone, -⟩ := s.engineStep_cases
  · exact absurd hrun hhalt
  · exact absurd (hfetch.symm.trans hp) (by decide)
  · obtain rfl := Option.some.inj (hdec.symm.trans hj)
    exact he
  · exact absurd (hdec.symm.trans hnone) (by simp)

theorem State.engineStep_of_halted (h : ¬ s.Running) : s.engineStep = .next s := by
  obtain ⟨-, he⟩ | ⟨hrun, -⟩ | ⟨j, ⟨hrun, -⟩, -⟩ | ⟨hrun, -⟩ := s.engineStep_cases
  · exact he
  all_goals exact absurd hrun h

theorem State.engineStep_of_not_fetchable (hrun : s.Running) (h : ¬ s.Fetchable) :
    s.engineStep = .next (s.raise .pcOutOfRange 0) := by
  obtain ⟨hhalt, -⟩ | ⟨-, -, he⟩ | ⟨j, ⟨-, hfetch, -⟩, -⟩ | ⟨-, hfetch, -⟩ := s.engineStep_cases
  · exact absurd hrun hhalt
  · exact he
  all_goals exact absurd hfetch h

theorem step_of_at (hb : StepBegins s s') (h : s.At i) : step s = exec i s' :=
  (step_of_stepBegins hb).trans (State.engineStep_of_at (hb.at_of_at h))

theorem step_of_tick (h : s.strobe = .tick) : step s = .next s.accept.tick := by
  simp only [step, State.transition, h]

/-- Settles O7: of the Step's cases, only that of a decoded instruction is left. -/
theorem stepRunsTheDecodedInstruction : Obligations.StepRunsTheDecodedInstruction := fun s _ _ hb h =>
  ⟨step_of_at hb h, wordOfBytes_toNat (s.readByte s.pc.toNat) (s.readByte (s.pc.toNat + 1))⟩

/-- Settles O8: of the Step's cases, only that of an unimplemented word is left. -/
theorem unimplementedWordIsANoOp : Obligations.UnimplementedWordIsANoOp := by
  intro s s' hb hrun hfetch hdec
  have ⟨d, _, hs'⟩ := hb
  subst hs'
  refine ⟨_, (step_of_stepBegins hb).trans (State.engineStep_of_decodeWord_none hrun hfetch hdec), rfl, rfl, rfl, ?_,
    hrun⟩
  simp [OnlyChanges, State.reg, State.readByte]

/-! ### FAULT after an instruction -/

theorem fault_notMem_writes (i : Instr) : .fault ∉ Instr.writes i := by
  cases i <;> simp [Instr.writes]

/-- PcOutOfRange is in no instruction's row of the fault table: only a fetch raises it (60_exceptions.md R180). -/
theorem not_raises_pcOutOfRange (i : Instr) (s : State) : ¬ Instr.raises i .pcOutOfRange s := by
  cases i <;> exact id

/-- An instruction keeps FAULT, or takes a fault of its row of the fault table. -/
theorem exec_fault_cases (h : exec i s = .next t) :
    t.fault = s.fault ∨ ∃ k, Instr.raises i k s ∧ t = s.raise k (encode i) := by
  obtain ⟨k, hk, he⟩ | ⟨u, -, he, ⟨-, -, -, -, -, -, -, hfault, -⟩, -⟩ := exec_cases i s <;> rw [he] at h
  · exact .inr ⟨k, hk, (Host.Outcome.next.inj h).symm⟩
  · obtain rfl := Host.Outcome.next.inj h
    exact .inl (hfault (fault_notMem_writes i))

/-- A Step of a running machine that may fetch raises no PcOutOfRange. -/
theorem State.engineStep_fault_kind {f : FaultRecord} (hrun : s.Running) (hfetch : s.Fetchable)
    (h : s.engineStep = .next t) (hf : t.fault = some f) : f.kind ≠ .pcOutOfRange := by
  obtain ⟨hhalt, -⟩ | ⟨-, hp, -⟩ | ⟨i, -, he⟩ | ⟨-, -, -, he⟩ := s.engineStep_cases
  · exact absurd hrun hhalt
  · exact absurd (hfetch.symm.trans hp) (by decide)
  · obtain hkeep | ⟨k, hk, rfl⟩ := exec_fault_cases (he.symm.trans h)
    · exact absurd (hf.symm.trans (hkeep.trans hrun)) (by simp)
    · obtain rfl := Option.some.inj hf
      rintro rfl
      exact not_raises_pcOutOfRange i s hk
  · obtain rfl := Host.Outcome.next.inj (he.symm.trans h)
    exact absurd (hf.symm.trans hrun) (by simp)

/-- Settles O9: the fetch check decides; past it only an instruction can fault, and none raises PcOutOfRange. -/
theorem fetchOutsideThePcInvariantFaults : Obligations.FetchOutsideThePcInvariantFaults := by
  intro s s' hb hrun
  rw [step_of_stepBegins hb]
  obtain ⟨d, -, rfl⟩ := hb
  refine ⟨fun hout => State.engineStep_of_not_fetchable hrun fun hfetch => ?_, fun hle hstrict t f h hf => ?_⟩
  · obtain ⟨hle, hstrict⟩ := s.fetchable_iff.1 hfetch
    obtain hgt | ⟨hs, hodd⟩ := hout
    · omega
    · have := hstrict hs
      omega
  · refine State.engineStep_fault_kind ?_ ?_ h hf
    · exact hrun
    · exact s.fetchable_iff.2 ⟨hle, hstrict⟩

/-! ### A halted machine (R96, R191) -/

theorem State.tick_of_halted (h : ¬ s.Running) : s.tick = s :=
  if_pos (s.halted_eq_true_iff.2 h)

/-- Settles O10: a Step and a Tick each have their halted case, and a transition that is neither is a Reset. -/
theorem haltedMachineStandsStillUntilReset : Obligations.HaltedMachineStandsStillUntilReset := by
  intro s hhalt
  have hstep : ∀ s', StepBegins s s' → step s = .next s' := fun s' hb => by
    rw [step_of_stepBegins hb]
    obtain ⟨d, -, rfl⟩ := hb
    exact State.engineStep_of_halted hhalt
  have htick : s.strobe = .tick → step s = .next s.accept := fun hs => by
    rw [step_of_tick hs, State.tick_of_halted (s := s.accept) hhalt]
  refine ⟨fun s' hb => ⟨hstep s' hb, hb.keeps⟩, htick, fun t h => ?_⟩
  obtain ⟨s', hb, -⟩ | ⟨hs, -⟩ | ⟨rom, hs, -⟩ := step_cases s
  · obtain rfl := Host.Outcome.next.inj ((hstep s' hb).symm.trans h)
    exact .inl (by rw [hb.keeps])
  · obtain rfl := Host.Outcome.next.inj ((htick hs).symm.trans h)
    exact .inl rfl
  · exact .inr ⟨rom, hs⟩

end Sys2Proof.Machine
end

section
/-! ## The PC and the return addresses after a transition (40_cycle.md R97) -/

namespace Sys2Proof.Machine

variable {s t : State} {i : Instr}

/-- The wait of R161 goes back over the fetch advance. -/
theorem State.rewind_advance (s : State) : s.advance.rewind = s := by
  simp only [State.rewind, State.advance, State.withPc, BitVec.add_sub_cancel]

theorem State.skipIf_advance_pc (s : State) (c : Bool) :
    (s.advance.skipIf c).pc = s.pc + 2 ∨ (s.advance.skipIf c).pc = s.pc + 2 + 2 := by
  cases c
  · exact .inl rfl
  · exact .inr rfl

theorem zextAddr_toNat_le (nnn : Addr) : (zextAddr nnn).toNat ≤ 0xFFF := by
  rw [zextAddr_toNat]
  exact Nat.le_of_lt_succ nnn.isLt

/-- The highest target of BNNN is 0xFF + 0xFFF: the sum does not wrap (R113). -/
theorem zextByte_add_zextAddr_toNat_le (b : Byte) (nnn : Addr) : (zextByte b + zextAddr nnn).toNat ≤ 0x10FE := by
  have hb := b.isLt
  have hnnn := zextAddr_toNat_le nnn
  rw [BitVec.toNat_add, zextByte_toNat]
  omega

/-- Where an instruction leaves the PC: at itself (a fault, or a key wait), at the next word or past it, at the return
address on top of the stack, or at a jump's target. -/
theorem exec_pc_cases (h : exec i s = .next t) :
    t.pc = s.pc ∨ t.pc = s.pc + 2 ∨ t.pc = s.pc + 2 + 2 ∨ t.pc = s.stack[s.sp] ∨ t.pc.toNat ≤ 0x10FE := by
  cases i with
  | ret =>
    obtain rfl := Host.Outcome.next.inj h
    split <;> simp
  | call nnn =>
    obtain rfl := Host.Outcome.next.inj h
    split
    · exact .inl rfl
    · exact .inr (.inr (.inr (.inr ((zextAddr_toNat_le nnn).trans (by decide)))))
  | jp nnn =>
    obtain rfl := Host.Outcome.next.inj h
    exact .inr (.inr (.inr (.inr ((zextAddr_toNat_le nnn).trans (by decide)))))
  | jpV0 nnn =>
    obtain rfl := Host.Outcome.next.inj h
    exact .inr (.inr (.inr (.inr (zextByte_add_zextAddr_toNat_le (s.reg 0) nnn))))
  | seImm | sneImm | seReg | sneReg =>
    obtain rfl := Host.Outcome.next.inj h
    exact .inr ((s.skipIf_advance_pc _).imp id .inl)
  | skp | sknp =>
    simp only [exec, execSkp, execSknp] at h
    split at h <;> obtain rfl := Host.Outcome.next.inj h
    · exact .inl rfl
    · exact .inr ((s.skipIf_advance_pc _).imp id .inl)
  | ldVxK =>
    obtain rfl := Host.Outcome.next.inj h
    split
    · exact .inl (congrArg State.pc s.rewind_advance)
    · exact .inr (.inl rfl)
  | ldB | ldMemVx =>
    simp only [exec, execLdB, execLdMemVx] at h
    split at h
    case h_1 => obtain rfl := Host.Outcome.next.inj h; exact .inl rfl
    case h_2 u hu =>
      obtain rfl := Host.Outcome.next.inj h
      obtain ⟨-, -, hpc, -⟩ := State.memWrite_only hu
      exact .inr (.inl hpc)
  | drw | ldVxMem =>
    simp only [exec, execDrw, execLdVxMem] at h
    split at h <;> obtain rfl := Host.Outcome.next.inj h
    · exact .inl rfl
    · exact .inr (.inl rfl)
  | cls | ldI | addI | ldF | ldDtVx | ldStVx | ldImm | addImm | ldReg | orReg | andReg | xorReg | rnd | ldVxDt
  | addReg | sub | shr | subn | shl =>
    obtain rfl := Host.Outcome.next.inj h
    exact .inr (.inl rfl)

/-- What an instruction does to the stack slots: nothing, or it writes the address of the next word above SP. -/
theorem exec_stack_cases (h : exec i s = .next t) :
    t.stack = s.stack ∨ t.stack = s.stack.set (s.sp + 1 : Fin 16) (s.pc + 2) := by
  obtain ⟨⟨-, -, hstack, -⟩, -⟩ := instructionsWriteOnlyTheirParts i s t h
  by_cases hi : .stack ∈ Instr.writes i
  · obtain rfl | ⟨nnn, rfl⟩ := (stack_mem_writes_iff i).1 hi <;> obtain rfl := Host.Outcome.next.inj h
    · left
      split <;> rfl
    · split
      · exact .inl rfl
      · exact .inr rfl
  · exact .inl (hstack (by simpa using hi)).1

/-- Only the PC and the stack slots matter to their bounds. -/
theorem PcBounded.congr (h : PcBounded s) (hpc : t.pc = s.pc) (hstack : t.stack = s.stack) : PcBounded t := by
  rwa [PcBounded, hpc, hstack]

/-- An allowed fetch stands at 0xFFE at most, so neither the next word nor a skip past it breaks the bound. -/
theorem exec_pcBounded (hs : PcBounded s) (hfetch : s.Fetchable) (h : exec i s = .next t) : PcBounded t := by
  obtain ⟨hpc, hslots⟩ := hs
  obtain ⟨hle, -⟩ := s.fetchable_iff.1 hfetch
  have hnext := hfetch.toNat_pc_add_two
  have hskip : (s.pc + 2 + 2).toNat = s.pc.toNat + 4 := by
    simp only [BitVec.toNat_add (s.pc + 2), hnext, BitVec.reduceToNat]
    omega
  constructor
  · obtain hp | hp | hp | hp | hp := exec_pc_cases h
    · rw [hp]; exact hpc
    · rw [hp, hnext]; omega
    · rw [hp, hskip]; omega
    · rw [hp]; exact (hslots s.sp).trans (by decide)
    · exact hp
  · intro k
    obtain hst | hst := exec_stack_cases h <;> simp only [hst]
    · exact hslots k
    · simp only [Fin.getElem_fin, Vector.getElem_set]
      split
      · omega
      · exact hslots k

/-- A Step without an instruction leaves the stack as it is, and the PC too or at the next word of an allowed fetch. -/
theorem State.engineStep_pcBounded (hs : PcBounded s) (h : s.engineStep = .next t) : PcBounded t := by
  obtain ⟨-, he⟩ | ⟨-, -, he⟩ | ⟨i, ⟨-, hfetch, -⟩, he⟩ | ⟨-, hfetch, -, he⟩ := s.engineStep_cases <;> rw [he] at h
  · obtain rfl := Host.Outcome.next.inj h; exact hs
  · obtain rfl := Host.Outcome.next.inj h; exact hs.congr rfl rfl
  · exact exec_pcBounded hs hfetch h
  · obtain rfl := Host.Outcome.next.inj h
    obtain ⟨-, hslots⟩ := hs
    obtain ⟨hle, -⟩ := s.fetchable_iff.1 hfetch
    refine ⟨?_, hslots⟩
    rw [State.unimplemented_pc, hfetch.toNat_pc_add_two]
    omega

/-- Settles O44: by the cases of a transition, and in a Step by where an instruction leaves the PC and the stack. -/
theorem transitionsKeepThePcBounded : Obligations.TransitionsKeepThePcBounded := by
  intro s t hs h
  obtain ⟨s', hb, he⟩ | ⟨-, he⟩ | ⟨rom, -, he⟩ := step_cases s <;> rw [he] at h
  · have hs' : PcBounded s' := hs.congr (by rw [hb.keeps]) (by rw [hb.keeps])
    exact State.engineStep_pcBounded hs' h
  · obtain rfl := Host.Outcome.next.inj h
    exact hs.congr (by simp) (by simp)
  · obtain ⟨-, hl⟩ | ⟨-, hl⟩ := s.accept.load_cases rom <;> rw [hl] at h
    · obtain rfl := Host.Outcome.next.inj h
      exact PcBounded.congr (s := State.reset) (by unfold PcBounded; decide) rfl rfl
    · cases h

end Sys2Proof.Machine
end

section
/-! ## Machines that wait in place, draws that do not matter, and a word placed at the PC (40_cycle.md) -/

namespace Sys2Proof.Machine

variable {s t : State} {i : Instr}

/-! ### Parked and blocked (R98) -/

/-- A jump to its own address changes nothing (R111). -/
theorem exec_jp_self {nnn : Addr} (h : nnn.toNat = s.pc.toNat) : exec (.jp nnn) s = .next s := by
  have hpc : zextAddr nnn = s.pc := BitVec.eq_of_toNat_eq ((zextAddr_toNat nnn).trans h)
  exact congrArg (fun p => Host.Outcome.next (s.advance.withPc p)) hpc

/-- FX0A with no key reported goes back over its own fetch advance, and has changed nothing (R161). -/
theorem exec_ldVxK_of_no_key {x : Reg} (h : s.env.ports.lastKey = none) : exec (.ldVxK x) s = .next s := by
  simp only [exec, execLdVxK, h, State.rewind_advance]

/-- Settles O35: the jump leads back to itself, and a Tick writes nothing that the fetch reads. -/
theorem parkedMachineStaysParked : Obligations.ParkedMachineStaysParked := by
  rintro s ⟨nnn, hat, hself⟩
  refine ⟨fun s' hb => ?_, fun hs => ⟨_, step_of_tick hs, ⟨nnn, ?_, ?_⟩, ?_, ?_⟩⟩
  · have hself' : nnn.toNat = s'.pc.toNat := by rw [hb.keeps]; exact hself
    exact ⟨(step_of_at hb hat).trans (exec_jp_self hself'), nnn, hb.at_of_at hat, hself'⟩
  · exact hat.congr (by simp) (by simp) (by simp) (by simp)
  · simpa using hself
  · simp
  · obtain ⟨honly, -⟩ := s.accept.tick_only
    exact honly

/-- Settles O36: with no key reported FX0A leads back to itself. -/
theorem blockedMachineWaitsForAKey : Obligations.BlockedMachineWaitsForAKey := by
  rintro s s' ⟨x, hat⟩ hb hkey
  exact ⟨(step_of_at hb hat).trans (exec_ldVxK_of_no_key hkey), x, hb.at_of_at hat⟩

/-! ### The draws (R13) -/

/-- The draws on the input ports replaced. -/
def State.withPorts (s : State) (d : Draws) : State := { s with env := { s.env with ports := d } }

@[simp] theorem State.withPorts_advance (s : State) (d : Draws) :
    (s.withPorts d).advance = s.advance.withPorts d := rfl
@[simp] theorem State.withPorts_reg (s : State) (d : Draws) (x : Reg) : (s.withPorts d).reg x = s.reg x := rfl
@[simp] theorem State.withPorts_regsTo (s : State) (d : Draws) (x : Reg) :
    (s.withPorts d).regsTo x = s.regsTo x := rfl
@[simp] theorem State.withPorts_dataAddr (s : State) (d : Draws) : (s.withPorts d).dataAddr = s.dataAddr := rfl
@[simp] theorem State.withPorts_memRead (s : State) (d : Draws) (a n : Nat) :
    (s.withPorts d).memRead a n = s.memRead a n := rfl

@[simp] theorem State.withPorts_raise (s : State) (d : Draws) (k : FaultKind) (w : Word) :
    (s.withPorts d).raise k w = (s.raise k w).withPorts d := rfl

/-- A store does not look at the ports. -/
@[simp] theorem State.withPorts_memWrite (s : State) (d : Draws) (a : Nat) (bs : List Byte) :
    (s.withPorts d).memWrite a bs = (s.memWrite a bs).map (·.withPorts d) := by
  unfold State.memWrite
  split <;> rfl

theorem State.withPorts_skipIf (s : State) (d : Draws) (c : Bool) :
    (s.withPorts d).skipIf c = (s.skipIf c).withPorts d := by
  cases c <;> rfl

/-- An instruction that samples no draw runs the same under other draws. -/
theorem exec_withPorts (d : Draws) (hi : Instr.samples i = false) (h : exec i s = .next t) :
    exec i (s.withPorts d) = .next (t.withPorts d) := by
  cases i with
  | skp | sknp | ldVxK | rnd => cases hi
  | ret | call =>
    obtain rfl := Host.Outcome.next.inj h
    rw [apply_ite (State.withPorts · d)]
    rfl
  | seImm | sneImm | seReg | sneReg =>
    obtain rfl := Host.Outcome.next.inj h
    exact congrArg _ (State.withPorts_skipIf s.advance d _)
  | ldB | ldMemVx =>
    simp only [exec, execLdB, execLdMemVx] at h
    split at h <;> rename_i hw <;> obtain rfl := Host.Outcome.next.inj h <;>
      simp [exec, execLdB, execLdMemVx, hw]
  | drw | ldVxMem =>
    simp only [exec, execDrw, execLdVxMem] at h
    split at h <;> rename_i hr <;> obtain rfl := Host.Outcome.next.inj h <;>
      simp only [exec, execDrw, execLdVxMem, State.withPorts_dataAddr, State.withPorts_memRead, hr] <;> rfl
  | cls | jp | jpV0 | ldI | addI | ldF | ldDtVx | ldStVx | ldImm | addImm | ldReg | orReg | andReg | xorReg | ldVxDt
  | addReg | sub | shr | subn | shl =>
    obtain rfl := Host.Outcome.next.inj h
    rfl

/-- Settles O41: each instruction that samples no draw, by what its meaning reads. -/
theorem unsampledDrawsDoNotMatter : Obligations.UnsampledDrawsDoNotMatter := fun _ _ _ d hi h =>
  exec_withPorts d hi h

/-! ### A word placed at the PC (log 14) -/

/-- The decoder on a table word's two bytes is the decoder on the word. -/
theorem decodeTableWord_eq_decodeWord (n w : Nat) : decodeTableWord n w = decodeWord (tableWord n w) := by
  simp only [decodeTableWord, bytesOfWord, decode, wordOfBytes_bytesOfWord]
  cases decodeWord (tableWord n w) <;> rfl

/-- The word stored at the PC is the one a fetch reads there. -/
theorem State.placeWord_fetchWord (s : State) (w : Word) : (s.placeWord w).fetchWord = w := by
  have hread := Memory.read_writeList s.cfg.fontRom s.mem s.pc.toNat (bytesOfWord w)
  have hhi : (s.placeWord w).readByte s.pc.toNat = w.extractLsb' 8 8 :=
    (hread _).trans (by simp [bytesOfWord])
  have hlo : (s.placeWord w).readByte (s.pc.toNat + 1) = w.extractLsb' 0 8 :=
    (hread _).trans (by simp [bytesOfWord])
  calc (s.placeWord w).fetchWord
    _ = wordOfBytes (w.extractLsb' 8 8) (w.extractLsb' 0 8) := congrArg₂ wordOfBytes hhi hlo
    _ = w := wordOfBytes_bytesOfWord w

/-- PROG_BASE is within the PC invariant of R91, whatever STRICT_PC is. -/
theorem State.readyToFetch_fetchable (s : State) : s.readyToFetch.Fetchable := by
  simp only [State.Fetchable, State.readyToFetch]
  split
  case isTrue => cases s.cfg.strictPc <;> decide
  case isFalse h => simpa using h

theorem stepNext_eq_step_cons (e : Env) : ∃ d rest, stepNext e = .step d :: rest := by
  unfold stepNext
  split <;> exact ⟨_, _, rfl⟩

/-- The next strobe of a machine made ready is the engine's. -/
theorem State.readyToFetch_strobe (s : State) : ∃ d, s.readyToFetch.strobe = .step d := by
  obtain ⟨d, rest, hscript⟩ := stepNext_eq_step_cons s.env
  exact ⟨d, (s.readyToFetch.strobe_of_script hscript).1⟩

/-- Settles O42: a machine made ready runs, may fetch, and reads the word just stored. -/
theorem placedWordRunsNext : Obligations.PlacedWordRunsNext := by
  intro s w i h
  rw [decodeTableWord_eq_decodeWord] at h
  obtain ⟨d, hd⟩ := s.readyToFetch_strobe
  have hat : (s.withFetchWord 16 w).At i :=
    ⟨rfl, s.readyToFetch_fetchable, by rw [State.withFetchWord, State.placeWord_fetchWord, h]⟩
  exact ⟨_, ⟨d, hd, rfl⟩, step_of_at ⟨d, hd, rfl⟩ hat⟩

end Sys2Proof.Machine
end

section
/-! ## The display: clearing it, and drawing a sprite (41_display.md) -/

namespace Sys2Proof.Machine

variable {s t : State} {i : Instr} {k k' : FaultKind}

/-! ### The case analysis of `exec`, once the row of the fault table is known to hold or not to hold -/

/-- An instruction raises at most one kind of fault (60_exceptions.md R186). -/
theorem Instr.raises_unique (h : Instr.raises i k s) (h' : Instr.raises i k' s) : k' = k := by
  cases i with
  | ret | call | drw | ldB | ldMemVx | ldVxMem | skp | sknp =>
    simp only [raises_ret, raises_call, raises_drw, raises_ldB, raises_ldMemVx, raises_ldVxMem, raises_skp,
      raises_sknp] at h h'
    exact h'.1.trans h.1.symm
  | _ => cases k <;> exact False.elim h

/-- An instruction whose row says so takes that fault. -/
theorem exec_of_raises (h : Instr.raises i k s) : exec i s = .next (s.raise k (encode i)) := by
  obtain ⟨k', hk', he⟩ | ⟨_, hnone, -, -⟩ := exec_cases i s
  · obtain rfl := Instr.raises_unique h hk'
    exact he
  · exact absurd h (hnone k)

/-- An instruction whose row does not say so completes. -/
theorem completes_of_exec (hr : ∀ k, ¬ Instr.raises i k s) (h : exec i s = .next t) : Completes i s t := by
  obtain ⟨k, hk, -⟩ | ⟨u, -, he, hc⟩ := exec_cases i s
  · exact absurd hk (hr k)
  · obtain rfl : u = t := Host.Outcome.next.inj (he.symm.trans h)
    exact hc

/-! ### Clearing (R100) -/

theorem blankDisplay_getElem (y : Fin 32) (x : Fin 64) : blankDisplay[y][x] = false := by
  simp [blankDisplay]

/-- Settles O15: the blank display has every pixel off, and the display is all that CLS has in its row. -/
theorem clearTurnsEveryPixelOff : Obligations.ClearTurnsEveryPixelOff := by
  intro s
  obtain ⟨honly, hout, -⟩ : Completes .cls s (s.advance.withDisp blankDisplay) :=
    completes_of_exec (by rintro ⟨⟩ <;> exact id) rfl
  exact ⟨rfl, _, rfl, blankDisplay_getElem, rfl, honly, hout⟩

/-! ### Drawing (R101, R102, R103) -/

variable {x y : Reg} {n : Fin 16}

/-- The sprite that DXYN draws in a state: is there a 1 of it at a column and a row? -/
def State.spriteBit (s : State) (x y : Reg) (n : Fin 16) : Nat → Nat → Bool :=
  spriteAt ((List.range n.val).map fun k => s.readByte (s.i.toNat + k)) ((s.reg x).toNat % 64) ((s.reg y).toNat % 32)

/-- With every row in memory DXYN raises no fault. -/
theorem not_raises_drw (h : n.val = 0 ∨ s.i.toNat + n.val - 1 < 0x1000) (k : FaultKind) :
    ¬ Instr.raises (.drw x y n) k s := by
  rw [raises_drw, State.memRead_eq_none_iff, State.dataAddr]
  omega

/-- With every row in memory DXYN draws its sprite over the display: the pixels under a 1 are toggled, and the flag is
whether one of them was on. -/
theorem exec_drw_of_lt (h : n.val = 0 ∨ s.i.toNat + n.val - 1 < 0x1000) :
    ∃ d : Drawing, exec (.drw x y n) s = .next ((s.advance.withDisp d.disp).setFlag d.hit) ∧
      (∀ (py : Fin 32) (px : Fin 64), d.disp[py][px] = (s.disp[py][px] ^^ s.spriteBit x y n px py)) ∧
      (d.hit = true ↔ ∃ (py : Fin 32) (px : Fin 64), s.spriteBit x y n px py = true ∧ s.disp[py][px] = true) := by
  have hread : s.memRead s.dataAddr n.val ≠ none := fun hnone =>
    not_raises_drw h .memoryOutOfRange ((raises_drw x y n).2 ⟨rfl, hnone⟩)
  obtain ⟨bs, hbs⟩ := Option.ne_none_iff_exists'.1 hread
  obtain ⟨-, rfl⟩ := State.memRead_eq_some s.dataAddr s hbs
  obtain ⟨hdisp, hhit⟩ := Drawing.rows_spec ((List.range n.val).map fun k => s.readByte (s.dataAddr + k))
    ⟨s.disp, false⟩ ((s.reg x).toNat % 64) ((s.reg y).toNat % 32)
  exact ⟨_, exec_drw_of_memRead hbs rfl, hdisp, hhit.trans (or_iff_right Bool.false_ne_true)⟩

/-- Settles O16: the drawing, and DXYN's rows of the access matrix and of the fault table. -/
theorem spriteTogglesItsPixelsAndReportsCollision : Obligations.SpriteTogglesItsPixelsAndReportsCollision := by
  intro s x y n
  refine ⟨wordXYN_toNat (by decide) x.isLt y.isLt n.isLt, fun hrange => ?_, fun hn hrange => ?_⟩
  · obtain ⟨d, hexec, hdisp, hhit⟩ := exec_drw_of_lt (x := x) (y := y) hrange
    obtain ⟨honly, hout, hregs⟩ := completes_of_exec (not_raises_drw hrange) hexec
    have hflag : ((s.advance.withDisp d.disp).setFlag d.hit).reg 15 = flagByte d.hit := by simp
    refine ⟨_, hexec, ?_, fun r hr => not_imp_comm.1 (hregs r) hr, rfl, honly, hout⟩
    rintro _ rfl
    refine ⟨hdisp, ?_, fun hoff => ?_⟩
    · rintro ⟨py, px, hon, hbit⟩
      rw [hflag, hhit.2 ⟨py, px, hbit, hon⟩, flagByte, if_pos rfl]
    · have hmiss : d.hit = false := by
        rw [← Bool.not_eq_true, hhit]
        rintro ⟨py, px, hbit, hon⟩
        exact absurd (hbit.symm.trans (hoff py px hon)) (by decide)
      rw [hflag, hmiss]
      rfl
  · exact exec_of_raises (i := .drw x y n) (k := .memoryOutOfRange) ⟨hn, hrange⟩

end Sys2Proof.Machine
end

section
/-! ## Jumps, calls and returns (42_flow.md) -/

namespace Sys2Proof.Machine

variable {s t u : State}

/-! ### Two runs in turn -/

/-- Parts that neither of two runs changes are unchanged after both. -/
theorem OnlyChanges.trans {p : List Part} (h : OnlyChanges p s t) (h' : OnlyChanges p t u) : OnlyChanges p s u := by
  obtain ⟨hv, hi, hstack, hdt, hst, hmem, hdisp, hfault, hcfg⟩ := h
  obtain ⟨hv', hi', hstack', hdt', hst', hmem', hdisp', hfault', hcfg'⟩ := h'
  have hslots : .stack ∉ p → u.stack = s.stack ∧ u.sp = s.sp := fun hp => by
    obtain ⟨hslot, hsp⟩ := hstack hp
    obtain ⟨hslot', hsp'⟩ := hstack' hp
    exact ⟨hslot'.trans hslot, hsp'.trans hsp⟩
  exact ⟨fun hp r => (hv' hp r).trans (hv hp r), fun hp => (hi' hp).trans (hi hp), hslots,
    fun hp => (hdt' hp).trans (hdt hp), fun hp => (hst' hp).trans (hst hp),
    fun hp a => (hmem' hp a).trans (hmem hp a), fun hp => (hdisp' hp).trans (hdisp hp),
    fun hp => (hfault' hp).trans (hfault hp), hcfg'.trans hcfg⟩

theorem SameOutside.trans (h : SameOutside s t) (h' : SameOutside t u) : SameOutside s u := by
  obtain ⟨henv, hevent⟩ := h
  obtain ⟨henv', hevent'⟩ := h'
  exact ⟨henv'.trans henv, hevent'.trans hevent⟩

/-! ### Jumps (R111, R113) -/

/-- The target of BNNN is the exact sum of a byte and an address: it does not wrap. -/
theorem zextByte_add_zextAddr_toNat (b : Byte) (nnn : Addr) :
    (zextByte b + zextAddr nnn).toNat = b.toNat + nnn.toNat := by
  have hb := b.isLt
  have hnnn := nnn.isLt
  rw [BitVec.toNat_add, zextByte_toNat, zextAddr_toNat]
  omega

/-- Settles O17: each jump's target as a natural number, and a jump has no part in its row. -/
theorem jumpsReplaceThePc : Obligations.JumpsReplaceThePc := by
  intro s nnn
  have hjp := State.withPc_only s (zextAddr nnn)
  have hjpV0 := State.withPc_only s (zextByte (s.reg 0) + zextAddr nnn)
  exact ⟨⟨wordNNN_toNat (by decide) nnn.isLt, _, rfl, zextAddr_toNat nnn, hjp⟩,
    wordNNN_toNat (by decide) nnn.isLt, _, rfl, zextByte_add_zextAddr_toNat (s.reg 0) nnn, hjpV0⟩

/-! ### Calls (R112) -/

/-- Below SP = 15 a call pushes the address of the next word and jumps. -/
theorem exec_call_of_lt {nnn : Addr} (h : s.sp.val < 15) :
    exec (.call nnn) s = .next (s.advance.pushPc.withPc (zextAddr nnn)) :=
  congrArg _ (if_neg (Fin.ne_of_lt h))

/-- Below SP = 15 a push counts up by one, with no wrap. -/
theorem State.pushPc_sp_val (h : s.sp.val < 15) : s.pushPc.sp.val = s.sp.val + 1 :=
  Fin.val_add_one_of_lt h

/-- Below SP = 15 a push writes the slot above SP, and no other. -/
theorem State.pushPc_stack_getElem (h : s.sp.val < 15) (k : Fin 16) :
    s.pushPc.stack[k] = if k.val = s.sp.val + 1 then s.pc else s.stack[k] := by
  have hslot : (s.sp + 1 : Fin 16).val = s.sp.val + 1 := State.pushPc_sp_val h
  simp only [State.pushPc_stack, Fin.getElem_fin, Vector.getElem_set, hslot, eq_comm (a := k.val)]

/-- Settles O18: the push and the jump below SP = 15, and at 15 the row of the fault table. -/
theorem callPushesTheReturnAddress : Obligations.CallPushesTheReturnAddress := by
  intro s nnn
  refine ⟨wordNNN_toNat (by decide) nnn.isLt, fun hlt => ?_, fun hfull => ?_⟩
  · obtain ⟨honly, hout, -⟩ := State.pushPc_only s.advance
    exact ⟨_, exec_call_of_lt hlt, State.pushPc_sp_val (s := s.advance) hlt,
      State.pushPc_stack_getElem (s := s.advance) hlt, zextAddr_toNat nnn, honly, hout⟩
  · exact exec_of_raises (i := .call nnn) (k := .stackOverflow) hfull

/-! ### Returns (R110) -/

/-- Above SP = 0 a return takes the PC from the slot at SP. -/
theorem exec_ret_of_pos (h : 0 < s.sp.val) : exec .ret s = .next s.advance.popPc :=
  congrArg _ (if_neg (Fin.ne_of_gt h))

/-- Above SP = 0 a pop counts down by one, with no wrap. -/
theorem State.popPc_sp_val (h : 0 < s.sp.val) : s.popPc.sp.val = s.sp.val - 1 :=
  Fin.val_sub_one_of_ne_zero (Fin.ne_of_gt h)

/-- Settles O19: the pop above SP = 0, and at 0 the row of the fault table. -/
theorem returnPopsTheReturnAddress : Obligations.ReturnPopsTheReturnAddress := by
  intro s
  refine ⟨rfl, fun hpos => ?_, fun hempty => ?_⟩
  · obtain ⟨honly, hout, hpc, hstack⟩ := State.popPc_only s.advance
    exact ⟨_, exec_ret_of_pos hpos, State.popPc_sp_val (s := s.advance) hpos, hpc, hstack, honly, hout⟩
  · exact exec_of_raises (i := .ret) (k := .stackUnderflow) hempty

/-- Settles O20: the return pops the slot that the call pushed, and the slots up to SP are not touched. -/
theorem returnUndoesCall : Obligations.ReturnUndoesCall := by
  intro s nnn hlt
  obtain ⟨-, hcall, -⟩ := callPushesTheReturnAddress s nnn
  obtain ⟨t, ht, htsp, htslots, -, htonly, htout⟩ := hcall hlt
  obtain ⟨-, hret, -⟩ := returnPopsTheReturnAddress t
  obtain ⟨u, hu, husp, hupc, hustack, huonly, huout⟩ := hret (by omega)
  refine ⟨t, u, ht, hu, ?_, Fin.ext (by omega), fun k hk => ?_, htonly.trans huonly, htout.trans huout⟩
  · rw [hupc, htslots, if_pos htsp]
  · rw [hustack, htslots, if_neg (by omega)]

end Sys2Proof.Machine
end

section
/-! ## The conditional skips (43_skip.md) -/

namespace Sys2Proof.Machine

variable {s : State} {i : Instr} {x : Reg}

/-! ### What every skip does (R120) -/

/-- A skip, taken or not, moves the PC alone. -/
theorem State.skipIf_advance_only (s : State) (c : Bool) :
    (s.advance.skipIf c).pc = (if c = true then s.pc + 4 else s.pc + 2) ∧
      OnlyChanges [] s (s.advance.skipIf c) ∧ SameOutside s (s.advance.skipIf c) := by
  cases c with
  | false => exact ⟨rfl, State.withPc_only s (s.pc + 2)⟩
  | true => exact ⟨BitVec.add_assoc s.pc 2 2, State.withPc_only s (s.pc + 2 + 2)⟩

/-- An instruction that is a skip on `c` skips exactly where `p` holds, `p` being what `c` tests. -/
theorem skips_of_exec {c : Bool} {p : Prop} [Decidable p] (h : exec i s = .next (s.advance.skipIf c))
    (hc : c = true ↔ p) : ∃ t, exec i s = .next t ∧ t.pc = (if p then s.pc + 4 else s.pc + 2) ∧
      OnlyChanges [] s t ∧ SameOutside s t := by
  obtain ⟨hpc, honly, hout⟩ := State.skipIf_advance_only s c
  exact ⟨_, h, hpc.trans (if_congr hc rfl rfl), honly, hout⟩

/-! ### The comparing skips (R121 to R124) -/

/-- Two bytes compare as their values do. -/
theorem beq_iff_toNat_eq (a b : Byte) : (a == b) = true ↔ decide (a.toNat = b.toNat) = true := by
  rw [beq_iff_eq, decide_eq_true_iff, BitVec.toNat_inj]

theorem bne_iff_toNat_ne (a b : Byte) : (a != b) = true ↔ decide (a.toNat ≠ b.toNat) = true := by
  rw [bne_iff_ne, decide_eq_true_iff, Ne, Ne, BitVec.toNat_inj]

/-- Settles O21: each of the four is a skip on its comparison, and a skip moves the PC alone. -/
theorem comparingSkips : Obligations.ComparingSkips := by
  intro s x y nn
  simp only [List.forall_mem_cons]
  refine ⟨⟨?_, ?_⟩, ⟨?_, ?_⟩, ⟨?_, ?_⟩, ⟨?_, ?_⟩, List.forall_mem_nil _⟩
  · exact wordXNN_toNat (by decide) x.isLt nn.isLt
  · exact skips_of_exec rfl (beq_iff_toNat_eq (s.reg x) nn)
  · exact wordXNN_toNat (by decide) x.isLt nn.isLt
  · exact skips_of_exec rfl (bne_iff_toNat_ne (s.reg x) nn)
  · exact wordXYN_toNat (by decide) x.isLt y.isLt (by decide)
  · exact skips_of_exec rfl (beq_iff_toNat_eq (s.reg x) (s.reg y))
  · exact wordXYN_toNat (by decide) x.isLt y.isLt (by decide)
  · exact skips_of_exec rfl (bne_iff_toNat_ne (s.reg x) (s.reg y))

/-! ### The key skips (R125, R126, R127) -/

variable {k : Fin 16}

/-- With V[X] the number of a key EX9E is a skip on that key's port. -/
theorem exec_skp_of_key (h : (s.reg x).toNat = k.val) :
    exec (.skp x) s = .next (s.advance.skipIf s.env.ports.keyDown[k]) := by
  simp only [exec, execSkp, (keyOf_eq_some_iff _ k).2 h]

/-- With V[X] the number of a key EXA1 is a skip on the same port inverted. -/
theorem exec_sknp_of_key (h : (s.reg x).toNat = k.val) :
    exec (.sknp x) s = .next (s.advance.skipIf (!s.env.ports.keyDown[k])) := by
  simp only [exec, execSknp, (keyOf_eq_some_iff _ k).2 h]

/-- The word with X = 0, and X added in its place: the form in which a row with a fixed byte is written (R74). -/
theorem wordXNN_toNat_add_x {op nn : Nat} (ho : op < 16) (hn : nn < 256) (x : Reg) :
    (wordXNN op x nn).toNat = op * 4096 + nn + x.val * 256 := by
  rw [wordXNN_toNat ho x.isLt hn, Nat.add_right_comm]

/-- Settles O22: each sense of the key is a skip, and above 0x0F the two rows of the fault table. -/
theorem keySkips : Obligations.KeySkips := by
  intro s x
  refine ⟨wordXNN_toNat_add_x (op := 0xE) (nn := 0x9E) (by decide) (by decide) x,
    wordXNN_toNat_add_x (op := 0xE) (nn := 0xA1) (by decide) (by decide) x,
    fun k hk => ⟨?_, ?_⟩, fun hrange => ?_⟩
  · exact skips_of_exec (exec_skp_of_key hk) Iff.rfl
  · exact skips_of_exec (exec_sknp_of_key hk) (Iff.of_eq (Bool.not_eq_true' _))
  · have hskp : Instr.raises (.skp x) .keyOutOfRange s := hrange
    have hsknp : Instr.raises (.sknp x) .keyOutOfRange s := hrange
    simp only [List.forall_mem_cons]
    exact ⟨exec_of_raises hskp, exec_of_raises hsknp, List.forall_mem_nil _⟩

end Sys2Proof.Machine
end

section
/-! ## Registers and arithmetic (44_alu.md) -/

namespace Sys2Proof.Machine

variable {s : State} {i : Instr} {x : Reg} {b : Byte} {c : Bool}

/-! ### What every instruction that writes V[X] does, without a flag and with one (R131) -/

/-- The fetch advance and a register write: PC + 2, and the general registers alone. -/
theorem State.setReg_advance_only (s : State) (x : Reg) (b : Byte) :
    (s.advance.setReg x b).pc = s.pc + 2 ∧ OnlyChanges [.regs] s (s.advance.setReg x b) ∧
      SameOutside s (s.advance.setReg x b) := by
  simp [OnlyChanges, SameOutside]

/-- The fetch advance, a result and then a flag: PC + 2, and the general registers alone. -/
theorem State.setResultAndFlag_advance_only (s : State) (x : Reg) (b : Byte) (c : Bool) :
    (s.advance.setResultAndFlag x b c).pc = s.pc + 2 ∧ OnlyChanges [.regs] s (s.advance.setResultAndFlag x b c) ∧
      SameOutside s (s.advance.setResultAndFlag x b c) := by
  simp [OnlyChanges, SameOutside]

/-- An instruction that writes the byte `b` to V[X] puts the value of `b` there and keeps every other register. -/
theorem writesResult_of_exec {result : Nat} (h : exec i s = .next (s.advance.setReg x b)) (hb : b.toNat = result) :
    ∃ t, exec i s = .next t ∧ (∀ r, (t.reg r).toNat = if r = x then result else (s.reg r).toNat) ∧
      t.pc = s.pc + 2 ∧ OnlyChanges [.regs] s t ∧ SameOutside s t := by
  refine ⟨_, h, fun r => ?_, State.setReg_advance_only s x b⟩
  rw [State.setReg_reg, State.advance_reg, apply_ite BitVec.toNat, hb]

/-- An instruction that writes a result and then a flag: the flag is the last write, so it stands when X = F (R131). -/
theorem writesResultAndFlag_of_exec {result flag : Nat} (h : exec i s = .next (s.advance.setResultAndFlag x b c))
    (hb : b.toNat = result) (hc : (flagByte c).toNat = flag) :
    ∃ t, exec i s = .next t ∧
      (∀ r : Reg, (t.reg r).toNat = if r = 15 then flag else if r = x then result else (s.reg r).toNat) ∧
      t.pc = s.pc + 2 ∧ OnlyChanges [.regs] s t ∧ SameOutside s t := by
  refine ⟨_, h, fun r => ?_, State.setResultAndFlag_advance_only s x b c⟩
  rw [State.setResultAndFlag_reg, State.advance_reg, apply_ite BitVec.toNat, apply_ite BitVec.toNat, hb, hc]

/-! ### Results and flags as natural numbers (R138 to R142) -/

/-- The difference modulo 256, with 256 lent before `b` is taken away. -/
theorem sub_toNat_byte (a b : Byte) : (a - b).toNat = (a.toNat + 256 - b.toNat) % 256 := by
  have hb := b.isLt
  rw [BitVec.toNat_sub]
  omega

theorem ushiftRight_one_toNat (a : Byte) : (a >>> 1).toNat = a.toNat / 2 := by
  rw [BitVec.toNat_ushiftRight, Nat.shiftRight_one]

theorem shiftLeft_one_toNat (a : Byte) : (a <<< 1).toNat = a.toNat * 2 % 256 := by
  rw [BitVec.toNat_shiftLeft, Nat.shiftLeft_eq, pow_one]

/-- The carry is the ninth bit of the sum (R138). -/
theorem flagByte_carryOf_toNat (a b : Byte) : (flagByte (carryOf a b)).toNat = (a.toNat + b.toNat) / 256 := by
  have ha := a.isLt
  have hb := b.isLt
  rw [flagByte_toNat, carryOf]
  simp only [decide_eq_true_eq]
  split <;> omega

theorem flagByte_noBorrow_toNat (a b : Byte) :
    (flagByte (noBorrow a b)).toNat = if b.toNat ≤ a.toNat then 1 else 0 := by
  simp only [flagByte_toNat, noBorrow, decide_eq_true_eq, ge_iff_le]

/-- The bit shifted out to the right is the remainder (R140). -/
theorem flagByte_lowBit_toNat (a : Byte) : (flagByte (lowBit a)).toNat = a.toNat % 2 := by
  rw [flagByte_toNat, lowBit, BitVec.getLsbD, Nat.testBit_zero]
  simp only [decide_eq_true_eq]
  split <;> omega

/-- The bit shifted out to the left is the quotient by 128 (R142). -/
theorem flagByte_highBit_toNat (a : Byte) : (flagByte (highBit a)).toNat = a.toNat / 128 := by
  have ha := a.isLt
  rw [flagByte_toNat, highBit, BitVec.getLsbD, Nat.testBit_eq_decide_div_mod_eq]
  simp only [decide_eq_true_eq]
  split <;> omega

/-! ### The instructions -/

/-- The word of a row with op 8, whose N tells the operation (R74). -/
theorem wordXYN_8_toNat {n : Nat} (hn : n < 16) (x y : Reg) :
    (wordXYN 0x8 x y n).toNat = 0x8000 + n + x.val * 256 + y.val * 16 := by
  rw [wordXYN_toNat (by decide) x.isLt y.isLt hn]
  omega

/-- Settles O25: each of the five writes its result and then its flag, both from the operands before the step. -/
theorem flagInstructionsWriteResultThenFlag : Obligations.FlagInstructionsWriteResultThenFlag := by
  rintro s x y _ _ rfl rfl
  simp only [List.forall_mem_cons]
  refine ⟨⟨wordXYN_8_toNat (n := 0x4) (by decide) x y, ?add⟩, ⟨wordXYN_8_toNat (n := 0x5) (by decide) x y, ?sub⟩,
    ⟨wordXYN_8_toNat (n := 0x6) (by decide) x y, ?shr⟩, ⟨wordXYN_8_toNat (n := 0x7) (by decide) x y, ?subn⟩,
    ⟨wordXYN_8_toNat (n := 0xE) (by decide) x y, ?shl⟩, List.forall_mem_nil _⟩
  case add => exact writesResultAndFlag_of_exec rfl (BitVec.toNat_add _ _) (flagByte_carryOf_toNat _ _)
  case sub => exact writesResultAndFlag_of_exec rfl (sub_toNat_byte _ _) (flagByte_noBorrow_toNat _ _)
  case shr => exact writesResultAndFlag_of_exec rfl (ushiftRight_one_toNat _) (flagByte_lowBit_toNat _)
  case subn => exact writesResultAndFlag_of_exec rfl (sub_toNat_byte _ _) (flagByte_noBorrow_toNat _ _)
  case shl => exact writesResultAndFlag_of_exec rfl (shiftLeft_one_toNat _) (flagByte_highBit_toNat _)

/-- Settles O23: each of the three writes its byte to V[X], and a register write keeps the rest. -/
theorem loadsAndImmediateAddWriteOnlyVx : Obligations.LoadsAndImmediateAddWriteOnlyVx := by
  intro s x y nn
  simp only [List.forall_mem_cons]
  refine ⟨⟨wordXNN_toNat (by decide) x.isLt nn.isLt, ?ldImm⟩, ⟨wordXNN_toNat (by decide) x.isLt nn.isLt, ?addImm⟩,
    ⟨wordXYN_8_toNat (n := 0x0) (by decide) x y, ?ldReg⟩, List.forall_mem_nil _⟩
  case ldImm => exact writesResult_of_exec rfl rfl
  case addImm => exact writesResult_of_exec rfl (BitVec.toNat_add _ _)
  case ldReg => exact writesResult_of_exec rfl rfl

/-- Settles O24: each of the three writes its byte to V[X], and a register write keeps the rest, VF too. -/
theorem logicWritesOnlyVx : Obligations.LogicWritesOnlyVx := by
  intro s x y
  simp only [List.forall_mem_cons]
  refine ⟨⟨wordXYN_8_toNat (n := 0x1) (by decide) x y, ?or⟩, ⟨wordXYN_8_toNat (n := 0x2) (by decide) x y, ?and⟩,
    ⟨wordXYN_8_toNat (n := 0x3) (by decide) x y, ?xor⟩, List.forall_mem_nil _⟩
  case or => exact writesResult_of_exec rfl (BitVec.toNat_or _ _)
  case and => exact writesResult_of_exec rfl (BitVec.toNat_and _ _)
  case xor => exact writesResult_of_exec rfl (BitVec.toNat_xor _ _)

/-- Settles O26: the byte on the port AND NN is written to V[X], and a bit that NN lacks is off in it. -/
theorem randomByteIsMasked : Obligations.RandomByteIsMasked := by
  intro s x nn
  refine ⟨wordXNN_toNat (by decide) x.isLt nn.isLt, _, rfl, State.setReg_reg s.advance x _, fun k hk => ?_,
    State.setReg_advance_only s x _⟩
  rw [State.setReg_reg, if_pos rfl, BitVec.getLsbD_and, hk, Bool.and_false]

end Sys2Proof.Machine
end

section
/-! ## The index register and memory blocks (45_index_memory.md) -/

namespace Sys2Proof.Machine

variable {s t : State} {i : Instr} {x : Reg}

/-! ### What every store does (R153, R154) -/

/-- The fetch advance and a store: PC + 2, and memory alone. -/
theorem State.memWrite_advance_only {a : Nat} {bs : List Byte} (h : s.advance.memWrite a bs = some t) :
    t.pc = s.pc + 2 ∧ OnlyChanges [.memory] s t ∧ SameOutside s t := by
  obtain ⟨honly, hout, hpc, -⟩ := State.memWrite_only h
  exact ⟨hpc, honly, hout⟩

/-- The k-th byte stored is at the address of the store plus k. -/
theorem State.memWrite_readByte_add {a k : Nat} {bs : List Byte} (h : s.memWrite a bs = some t)
    (hk : k < bs.length) : t.readByte (a + k) = bs[k] := by
  rw [State.memWrite_readByte a s h, dif_pos ⟨by omega, by omega⟩]
  simp

/-- A byte before the store's first or from its end on is as it was. -/
theorem State.memWrite_readByte_outside {a m : Nat} {bs : List Byte} (h : s.memWrite a bs = some t)
    (hm : m < a ∨ a + bs.length ≤ m) : t.readByte m = s.readByte m := by
  rw [State.memWrite_readByte a s h, dif_neg (by omega)]

/-! ### Decimal digits (R153) -/

/-- FX33 with its last address in memory is one store, made after the fetch advance. -/
theorem exec_ldB_of_lt (h : s.dataAddr + 2 < 0x1000) :
    ∃ t, exec (.ldB x) s = .next t ∧ s.advance.memWrite s.dataAddr (decimalDigits (s.reg x)) = some t := by
  have hin : s.advance.memWrite s.dataAddr (decimalDigits (s.reg x)) ≠ none := by
    rw [Ne, State.memWrite_eq_none_iff, decimalDigits_length]
    omega
  obtain ⟨t, ht⟩ := Option.ne_none_iff_exists'.1 hin
  exact ⟨t, by simp only [exec, execLdB, ht], ht⟩

/-- Each digit fits a byte. -/
theorem decimalDigits_toNat (b : Byte) :
    (decimalDigits b).map BitVec.toNat = [b.toNat / 100, b.toNat / 10 % 10, b.toNat % 10] := by
  have hb := b.isLt
  have hhundreds : b.toNat / 100 < 256 := by omega
  have htens : b.toNat / 10 % 10 < 256 := by omega
  have hones : b.toNat % 10 < 256 := by omega
  simp [decimalDigits, Nat.mod_eq_of_lt, hhundreds, htens, hones]

/-- The k-th byte stored is the k-th digit. -/
theorem State.memWrite_decimalDigits_readByte {a k : Nat} {b : Byte}
    (h : s.advance.memWrite a (decimalDigits b) = some t) (hk : k < 3) :
    (t.readByte (a + k)).toNat = [b.toNat / 100, b.toNat / 10 % 10, b.toNat % 10][k] := by
  have hlt : k < (decimalDigits b).length := hk
  rw [State.memWrite_readByte_add h hlt, ← List.getElem_map BitVec.toNat (h := by rwa [List.length_map])]
  simp only [decimalDigits_toNat]

/-- Settles O28: the store of the three digits, and past the end of memory the row of the fault table. -/
theorem decimalDigitsAreStored : Obligations.DecimalDigitsAreStored := by
  intro s x
  refine ⟨wordXNN_toNat_add_x (op := 0xF) (nn := 0x33) (by decide) (by decide) x, fun hlt => ?_, fun hout => ?_, rfl⟩
  · obtain ⟨t, he, ht⟩ := exec_ldB_of_lt (x := x) hlt
    refine ⟨t, he, State.memWrite_decimalDigits_readByte (k := 0) ht (by decide),
      State.memWrite_decimalDigits_readByte (k := 1) ht (by decide),
      State.memWrite_decimalDigits_readByte (k := 2) ht (by decide), fun a ha => ?_, State.memWrite_advance_only ht⟩
    refine State.memWrite_readByte_outside (s := s.advance) ht ?_
    rw [decimalDigits_length]
    omega
  · exact exec_of_raises (i := .ldB x) (k := .memoryOutOfRange) hout

/-! ### Registers to memory (R154) -/

/-- Settles O29: the store of the registers, and past the end of memory the row of the fault table. -/
theorem registersAreStored : Obligations.RegistersAreStored := by
  intro s x
  refine ⟨wordXNN_toNat_add_x (op := 0xF) (nn := 0x55) (by decide) (by decide) x, fun hlt => ?_, fun hout => ?_, rfl⟩
  · obtain ⟨t, he, ht⟩ := exec_ldMemVx_of_lt hlt
    refine ⟨t, he, State.memWrite_regsTo_readByte ht, fun a ha => ?_, State.memWrite_advance_only ht⟩
    refine State.memWrite_readByte_outside (s := s.advance) ht ?_
    rw [State.regsTo_length]
    omega
  · exact exec_of_raises (i := .ldMemVx x) (k := .memoryOutOfRange) hout

/-! ### Memory to registers (R155) -/

/-- FX65 with its last address in memory is one read, and a load of what it answers. -/
theorem exec_ldVxMem_of_lt (h : s.dataAddr + x.val < 0x1000) :
    ∃ bs, exec (.ldVxMem x) s = .next (s.advance.loadRegs bs) ∧ s.memRead s.dataAddr (x.val + 1) = some bs := by
  have hin : s.memRead s.dataAddr (x.val + 1) ≠ none := by
    rw [Ne, State.memRead_eq_none_iff]
    omega
  obtain ⟨bs, hbs⟩ := Option.ne_none_iff_exists'.1 hin
  exact ⟨bs, by simp only [exec, execLdVxMem, hbs], hbs⟩

/-- Registers 0 to x take the bytes read, and those above have no byte to take. -/
theorem State.loadRegs_memRead_reg {a : Nat} {bs : List Byte} (h : s.memRead a (x.val + 1) = some bs) (k : Reg) :
    (s.advance.loadRegs bs).reg k = if k ≤ x then s.readByte (a + k.val) else s.reg k := by
  obtain ⟨-, rfl⟩ := State.memRead_eq_some a s h
  rw [State.loadRegs_reg, State.advance_reg, List.getElem?_map]
  split
  case isTrue hk => rw [List.getElem?_range (Nat.lt_succ_of_le hk)]; rfl
  case isFalse hk => rw [List.getElem?_eq_none (by simpa using Nat.lt_of_not_le hk)]; rfl

/-- The fetch advance and a load: PC + 2, and the general registers alone. -/
theorem State.loadRegs_advance_only (s : State) (bs : List Byte) :
    (s.advance.loadRegs bs).pc = s.pc + 2 ∧ OnlyChanges [.regs] s (s.advance.loadRegs bs) ∧
      SameOutside s (s.advance.loadRegs bs) := by
  simp [OnlyChanges, SameOutside]

/-- Settles O30: the load of the bytes read, and past the end of memory the row of the fault table. -/
theorem registersAreLoaded : Obligations.RegistersAreLoaded := by
  intro s x
  refine ⟨wordXNN_toNat_add_x (op := 0xF) (nn := 0x65) (by decide) (by decide) x, fun hlt => ?_, fun hout => ?_⟩
  · obtain ⟨bs, he, hbs⟩ := exec_ldVxMem_of_lt (x := x) hlt
    exact ⟨_, he, State.loadRegs_memRead_reg hbs, State.loadRegs_advance_only s bs⟩
  · exact exec_of_raises (i := .ldVxMem x) (k := .memoryOutOfRange) hout

/-- Settles O31: the store leaves I, so the load reads the very bytes that were stored. -/
theorem loadRestoresWhatStoreSaved : Obligations.LoadRestoresWhatStoreSaved := by
  intro s x w hlt
  obtain ⟨-, hstore, -⟩ := registersAreStored s x
  obtain ⟨t, ht, hbytes, -, -, ⟨-, hindex, -⟩, -⟩ := hstore hlt
  have hi : t.i = s.i := hindex (by decide)
  obtain ⟨-, hload, -⟩ := registersAreLoaded (t.withV w) x
  obtain ⟨u, hu, hregs, -⟩ := hload (by rw [State.withV_i, hi]; exact hlt)
  refine ⟨t, u, ht, hu, fun k => ?_⟩
  rw [hregs, State.withV_i, hi, State.withV_readByte]
  exact if_ctx_congr Iff.rfl (hbytes k) fun _ => rfl

/-! ### Writes of I (R150, R151, R152) -/

/-- The fetch advance and a write of I: PC + 2, and I alone. -/
theorem State.withI_advance_only (s : State) (a : Word) :
    (s.advance.withI a).pc = s.pc + 2 ∧ OnlyChanges [.index] s (s.advance.withI a) ∧
      SameOutside s (s.advance.withI a) := by
  simp [OnlyChanges, SameOutside]

/-- An instruction that writes the word `a` to I puts the value of `a` there and changes nothing else. -/
theorem writesIndex_of_exec {a : Word} {value : Nat} (h : exec i s = .next (s.advance.withI a))
    (ha : a.toNat = value) :
    ∃ t, exec i s = .next t ∧ t.i.toNat = value ∧ t.pc = s.pc + 2 ∧ OnlyChanges [.index] s t ∧ SameOutside s t :=
  ⟨_, h, ha, State.withI_advance_only s a⟩

/-- A byte added to I: the sum wraps at 16 bits and at nothing smaller (R151). -/
theorem add_zextByte_toNat (a : Word) (b : Byte) : (a + zextByte b).toNat = (a.toNat + b.toNat) % 65536 := by
  rw [BitVec.toNat_add, zextByte_toNat]

/-- Settles O27: each of the three is a write of I with its value. -/
theorem indexWrites : Obligations.IndexWrites := by
  intro s x nnn
  simp only [List.forall_mem_cons]
  refine ⟨⟨wordNNN_toNat (by decide) nnn.isLt, ?ldI⟩,
    ⟨wordXNN_toNat_add_x (op := 0xF) (nn := 0x1E) (by decide) (by decide) x, ?addI⟩,
    ⟨wordXNN_toNat_add_x (op := 0xF) (nn := 0x29) (by decide) (by decide) x, ?ldF⟩, List.forall_mem_nil _⟩
  case ldI => exact writesIndex_of_exec rfl (zextAddr_toNat nnn)
  case addI => exact writesIndex_of_exec rfl (add_zextByte_toNat s.i (s.reg x))
  case ldF => exact writesIndex_of_exec rfl (glyphAddr_toNat (s.reg x))

end Sys2Proof.Machine
end

section
/-! ## The timers and the key wait (46_timer_key.md) -/

namespace Sys2Proof.Machine

variable {s : State} {x : Reg}

/-! ### Writes of the timers (R162, R163) -/

/-- The fetch advance and a write of DT: PC + 2, and DT alone. -/
theorem State.withDt_advance_only (s : State) (b : Byte) :
    (s.advance.withDt b).pc = s.pc + 2 ∧ OnlyChanges [.delay] s (s.advance.withDt b) ∧
      SameOutside s (s.advance.withDt b) := by
  simp [OnlyChanges, SameOutside]

/-- The fetch advance and a write of ST: PC + 2, and ST alone. -/
theorem State.withSt_advance_only (s : State) (b : Byte) :
    (s.advance.withSt b).pc = s.pc + 2 ∧ OnlyChanges [.sound] s (s.advance.withSt b) ∧
      SameOutside s (s.advance.withSt b) := by
  simp [OnlyChanges, SameOutside]

/-- The port `sound_on` follows the byte written to ST at once (R163). -/
theorem State.soundOn_withSt_iff (s : State) (b : Byte) : (s.withSt b).soundOn = true ↔ b ≠ 0 := by
  rw [State.soundOn, State.withSt_st, bne_iff_ne]

/-- Settles O33: FX07 is one write of V[X], FX15 one of DT and FX18 one of ST, each after the fetch advance. -/
theorem timerInstructions : Obligations.TimerInstructions := by
  intro s x
  refine ⟨⟨wordXNN_toNat_add_x (op := 0xF) (nn := 0x07) (by decide) (by decide) x, ?ldVxDt⟩,
    ⟨wordXNN_toNat_add_x (op := 0xF) (nn := 0x15) (by decide) (by decide) x, ?ldDtVx⟩,
    ⟨wordXNN_toNat_add_x (op := 0xF) (nn := 0x18) (by decide) (by decide) x, ?ldStVx⟩⟩
  case ldVxDt => exact ⟨_, rfl, State.setReg_reg s.advance x s.dt, State.setReg_advance_only s x s.dt⟩
  case ldDtVx => exact ⟨_, rfl, State.withDt_dt s.advance (s.reg x), State.withDt_advance_only s (s.reg x)⟩
  case ldStVx =>
    exact ⟨_, rfl, State.withSt_st s.advance (s.reg x), State.soundOn_withSt_iff s.advance (s.reg x),
      State.withSt_advance_only s (s.reg x)⟩

/-! ### The key wait (R161) -/

/-- With a key reported FX0A is one write of its number to V[X]. -/
theorem exec_ldVxK_of_key {k : Fin 16} (h : s.env.ports.lastKey = some k) :
    exec (.ldVxK x) s = .next (s.advance.setReg x (keyByte k)) := by
  simp only [exec, execLdVxK, h]

/-- Settles O34: a reported key is a write of V[X], and with none the rewind undoes the fetch advance. -/
theorem keyWait : Obligations.KeyWait := by
  intro s x
  refine ⟨wordXNN_toNat_add_x (op := 0xF) (nn := 0x0A) (by decide) (by decide) x, fun k hk => ?_,
    exec_ldVxK_of_no_key⟩
  exact writesResult_of_exec (exec_ldVxK_of_key hk) (keyByte_toNat k)

end Sys2Proof.Machine
end

section
/-! ## Faults and the Tick (60_exceptions.md) -/

namespace Sys2Proof.Machine

variable {s t : State} {i : Instr} {k : FaultKind} {f : FaultRecord}

/-! ### The faults of an instruction (R180, R186) -/

/-- Settles O38: a running machine's FAULT is set by an instruction only where it takes the fault of its row, and an
instruction whose row says so takes it. -/
theorem instructionFaultsExactlyWhenItsRowSays : Obligations.InstructionFaultsExactlyWhenItsRowSays := by
  intro i s k hrun
  constructor
  · rintro ⟨t, f, h, hf, rfl⟩
    obtain hkeep | ⟨k, hk, rfl⟩ := exec_fault_cases h
    · exact absurd (hf.symm.trans (hkeep.trans hrun)) (by simp)
    · obtain rfl := Option.some.inj hf
      exact hk
  · exact fun hk => ⟨_, _, exec_of_raises hk, rfl, rfl⟩

/-! ### The fault of a Step (R180, R184) -/

/-- The word at the PC is the encoding of the instruction that stands there (log 10). -/
theorem State.At.encode_eq_fetchWord (h : s.At i) : encode i = s.fetchWord := by
  obtain ⟨-, -, hdec⟩ := h
  exact encodeUndoesDecode _ _ hdec

/-- A running machine whose Step ends with FAULT set has taken that very fault: that of a fetch which is not allowed, or
that of the row of the instruction at the PC. -/
theorem State.engineStep_fault_cases (hrun : s.Running) (h : s.engineStep = .next t) (hf : t.fault = some f) :
    t = { s with fault := some f, event := .faulted f.kind } ∧ f.fpc = s.pc ∧
      ((f.kind = .pcOutOfRange ∧ f.fword = 0 ∧ ¬ s.Fetchable) ∨
        ∃ i, s.At i ∧ f.fword = encode i ∧ Instr.raises i f.kind s) := by
  obtain ⟨hhalt, -⟩ | ⟨-, hp, he⟩ | ⟨i, hat, he⟩ | ⟨-, -, -, he⟩ := s.engineStep_cases
  · exact absurd hrun hhalt
  · obtain rfl := Host.Outcome.next.inj (he.symm.trans h)
    obtain rfl := Option.some.inj hf
    exact ⟨rfl, rfl, .inl ⟨rfl, rfl, fun hfetch => absurd (hfetch.symm.trans hp) (by decide)⟩⟩
  · obtain hkeep | ⟨k, hk, rfl⟩ := exec_fault_cases (he.symm.trans h)
    · exact absurd (hf.symm.trans (hkeep.trans hrun)) (by simp)
    · obtain rfl := Option.some.inj hf
      exact ⟨rfl, rfl, .inr ⟨i, hat, rfl, hk⟩⟩
  · obtain rfl := Host.Outcome.next.inj (he.symm.trans h)
    exact absurd (hf.symm.trans hrun) (by simp)

/-- Settles O39: the Step's fault is the one that was taken, and the word it tells of is the fetched one. -/
theorem faultsArePrecise : Obligations.FaultsArePrecise := by
  intro s s' t f hb hrun h hf
  rw [step_of_stepBegins hb] at h
  obtain ⟨d, -, rfl⟩ := hb
  obtain ⟨ht, hpc, hcause⟩ := State.engineStep_fault_cases (s := s.beginStep d) hrun h hf
  refine ⟨ht, hpc, hcause.imp_right ?_⟩
  rintro ⟨i, hat, hw, hk⟩
  exact ⟨i, hat, hw.trans hat.encode_eq_fetchWord, hk⟩

/-! ### The end of a run (R189, R201) -/

/-- Settles O40: of a transition's cases, only a Reset with a ROM that is too long has no next state. -/
theorem onlyAnOversizedRomEndsARun : Obligations.OnlyAnOversizedRomEndsARun := fun s =>
  (step_next_or_romTooLarge s).imp_left fun ⟨t, h, _⟩ => ⟨t, h⟩

/-! ### FAULT tells of the frozen state (R184) -/

/-- A running machine has no FAULT to explain. -/
theorem FaultExplained.of_running (h : s.Running) : FaultExplained s := fun f hf =>
  absurd (hf.symm.trans h) (by simp)

/-- Whether a row of the fault table holds does not depend on FAULT: a fault taken leaves its cause standing. -/
theorem raises_faulted_iff (fault : Option FaultRecord) (event : Event) :
    Instr.raises i k { s with fault := fault, event := event } ↔ Instr.raises i k s := Iff.rfl

/-- A halted machine's Step keeps the state, and a running one's takes a fault whose cause stands. -/
theorem State.engineStep_faultExplained (hs : FaultExplained s) (h : s.engineStep = .next t) : FaultExplained t := by
  by_cases hrun : s.Running
  · intro f hf
    obtain ⟨rfl, hpc, hcause⟩ := State.engineStep_fault_cases hrun h hf
    refine ⟨hpc, hcause.imp_right ?_⟩
    rintro ⟨i, -, hw, hk⟩
    exact ⟨i, hw, (raises_faulted_iff _ _).2 hk⟩
  · obtain rfl := Host.Outcome.next.inj ((State.engineStep_of_halted hrun).symm.trans h)
    exact hs

/-- A halted machine's Tick keeps the state. -/
theorem FaultExplained.tick (hs : FaultExplained s) : FaultExplained s.tick := by
  by_cases hrun : s.Running
  · exact .of_running (s.tick_fault.trans hrun)
  · rwa [State.tick_of_halted hrun]

/-- Settles O46: by the cases of a transition; the beginning of one changes nothing of the block, and after a Reset the
machine runs. -/
theorem transitionsKeepTheFaultExplained : Obligations.TransitionsKeepTheFaultExplained := by
  intro s t hs h
  obtain ⟨s', ⟨d, -, rfl⟩, he⟩ | ⟨-, he⟩ | ⟨rom, -, he⟩ := step_cases s <;> rw [he] at h
  · refine State.engineStep_faultExplained ?_ h
    exact hs
  · obtain rfl := Host.Outcome.next.inj h
    exact FaultExplained.tick (s := s.accept) hs
  · obtain ⟨-, hl⟩ | ⟨-, hl⟩ := s.accept.load_cases rom <;> rw [hl] at h
    · obtain rfl := Host.Outcome.next.inj h
      exact .of_running rfl
    · cases h

/-! ### The Tick (R191, R192) -/

/-- The beginning of a Tick or of a Reset takes the strobe, and nothing of the block changes. -/
theorem State.accept_only (s : State) : OnlyChanges [] s s.accept := by
  simp [OnlyChanges]

/-- A Tick of a running machine counts each timer down, to 0 at the least. -/
theorem State.tick_toNat (h : s.Running) :
    s.tick.dt.toNat = s.dt.toNat - 1 ∧ s.tick.st.toNat = s.st.toNat - 1 := by
  have hrun : s.halted = false := s.halted_eq_false_iff.2 h
  simp [hrun, countDown_toNat]

/-- The port `sound_on` is low exactly when the count in ST is 0 (R192). -/
theorem State.soundOn_eq_false_iff (s : State) : s.soundOn = false ↔ s.st.toNat = 0 := by
  rw [State.soundOn, bne_eq_false_iff_eq, ← BitVec.toNat_inj]
  rfl

/-- Settles O11: a Tick is the count of both timers or, halted, no change; and ST = 1 counts down to 0, where the tone
ends. -/
theorem tickCountsBothTimersDown : Obligations.TickCountsBothTimersDown := by
  intro s htick
  constructor
  · intro hrun
    obtain ⟨hdt, hst⟩ := State.tick_toNat (s := s.accept) hrun
    obtain ⟨honly, -, hpc⟩ := s.accept.tick_only
    refine ⟨_, step_of_tick htick, hdt, hst, hpc, (s.accept_only.mono (by simp)).trans honly, fun hone => ?_⟩
    constructor
    · rw [State.soundOn, hone]
      decide
    · rw [State.soundOn_eq_false_iff, hst, State.accept_st, hone]
      decide
  · intro hhalt
    refine ⟨s.accept, ?_, rfl, s.accept_only⟩
    rw [step_of_tick htick, State.tick_of_halted (s := s.accept) hhalt]

end Sys2Proof.Machine
end

section
/-! ## Reset (70_reset_and_hazards.md) -/

namespace Sys2Proof.Machine

/-! ### What State.reset holds (R202) -/

theorem State.reset_reg (r : Reg) : State.reset.reg r = 0 := by
  simp [State.reg, State.reset]

theorem State.reset_stack (k : Fin 16) : State.reset.stack[k] = 0 := by
  simp [State.reset]

theorem State.reset_disp (y : Fin 32) (x : Fin 64) : State.reset.disp[y][x] = false := by
  simp [State.reset]

/-- An address at which no byte is listed holds its reset content (20_memory.md R51). -/
theorem State.readByte_of_mem_nil {s : State} (h : s.mem = []) (a : Nat) :
    s.readByte a = Memory.unlisted s.cfg.fontRom a := by
  rw [State.readByte, h, Memory.read]

/-- Settles O13: no byte is listed, and every other piece of the block is zero by definition. -/
theorem stateAfterReset : Obligations.StateAfterReset :=
  ⟨fun a _ => State.readByte_of_mem_nil rfl a, State.reset_reg, rfl, rfl, State.reset_stack, rfl, rfl, rfl,
    State.reset_disp, rfl, rfl⟩

/-- Settles O47: nothing is listed in memory, every return address is 0, and the machine runs. -/
theorem resetMeetsTheInvariants : Obligations.ResetMeetsTheInvariants := by
  refine ⟨Memory.wf_reset, ⟨by decide, fun k => ?_⟩, State.reset_stack 0, .of_running rfl⟩
  rw [State.reset_stack]
  decide

/-! ### Reset(rom) from any state (R200, R201, R203) -/

theorem step_of_reset {s : State} {rom : List Byte} (h : s.strobe = .reset rom) : step s = s.accept.load rom := by
  simp only [step, State.transition, h]

/-- Memory after a Reset: the ROM from 0x200 on, and elsewhere the reset content. -/
theorem Memory.read_rom (font : Vector Byte 80) (rom : List Byte) (a : Nat) :
    Memory.read font (Memory.writeList font [] 0x200 rom) a =
      if h : 0x200 ≤ a ∧ a < 0x200 + rom.length then rom[a - 0x200] else Memory.unlisted font a :=
  Memory.read_writeList font [] 0x200 rom a

/-- Settles O12: by the two cases of a Reset; the block it builds is State.reset but for the ROM and the parameters. -/
theorem resetBuildsTheWholeBlock : Obligations.ResetBuildsTheWholeBlock := by
  intro s rom hs
  rw [step_of_reset hs]
  obtain ⟨hle, hl⟩ | ⟨hlong, hl⟩ := s.accept.load_cases rom
  · exact ⟨fun _ => ⟨_, hl, fun a _ => Memory.read_rom s.cfg.fontRom rom a, State.reset_reg, rfl, rfl,
      State.reset_stack, rfl, rfl, rfl, State.reset_disp, rfl, rfl⟩, fun hlong => absurd hle (by omega)⟩
  · exact ⟨fun hle => absurd hlong (by omega), fun _ => hl⟩

end Sys2Proof.Machine
end
